-- ==== Sys2Proof/Word.lean ====
section
/-! DEFINITION. The word types of the protocol engine: bytes of the bus and of the USB data stage,
and the 16-bit and 32-bit words of the command set (spec/00_scope.md R9, spec/20_memory.md R64). -/

namespace Sys2Proof

/-- One byte of a SETUP packet, of the USB data stage or of the I2C bus (R64). -/
abbrev Byte := BitVec 8

/-- A 16-bit request field: `wValue`, `wIndex` or `wLength` (R90). -/
abbrev Word16 := BitVec 16

/-- The 32-bit capability word (R192). -/
abbrev Word32 := BitVec 32

end Sys2Proof
end

