-- ==== Sys2Proof/Syntax.lean ====
section
/-! DEFINITION. The commands of the block: the SETUP packet that carries one, its operand fields,
and the inductive `Instr` with one constructor per row of spec/opcode_table.json
(spec/30_encoding.md R90 to R93). -/

namespace Sys2Proof

/-- Direction of a data stage and of a transfer: `read` is slave to host (USB IN), `write` is host to
slave (USB OUT) (R95). -/
inductive Dir
  | read
  | write
  deriving DecidableEq, Repr, Inhabited

/-- The eight bytes of one control request, in byte-offset order 0 to 7 (R90; the offsets are PRESUMED,
log entry 1). -/
structure Packet where
  bmRequestType : Byte
  bRequest      : Byte
  wValueLo      : Byte
  wValueHi      : Byte
  wIndexLo      : Byte
  wIndexHi      : Byte
  wLengthLo     : Byte
  wLengthHi     : Byte
  deriving DecidableEq, Repr, Inhabited

/-- A control request as the transport delivers it: the SETUP packet, and the direction in which the host
runs the data stage (R10, R208). The direction is the host's move and is not decoded from
`bmRequestType` (R102; log entry 4). -/
structure Request where
  packet    : Packet
  dataStage : Dir
  deriving DecidableEq, Repr, Inhabited

/-- The operand fields of a request: everything in the packet but the opcode (R90, R93). The fields a
command does not use are kept, so that no bit of an encoding is lost (R99). -/
structure Fields where
  bmRequestType : Byte
  wValue        : Word16
  wIndex        : Word16
  wLength       : Word16
  deriving DecidableEq, Repr, Inhabited

/-- The eight commands, one constructor per row of the opcode table (R91). -/
inductive Instr
  /-- ECHO, opcode 0x00 (R191). -/
  | echo (f : Fields)
  /-- GET_CAPABILITIES, opcode 0x01 (R192). -/
  | getCapabilities (f : Fields)
  /-- SET_DELAY, opcode 0x02 (R193 to R196). -/
  | setDelay (f : Fields)
  /-- GET_STATUS, opcode 0x03 (R197). -/
  | getStatus (f : Fields)
  /-- PERFORM_IO, opcode 0x04, no flags (R198 to R204). -/
  | performIo (f : Fields)
  /-- PERFORM_IO_BEGIN, opcode 0x05. -/
  | performIoBegin (f : Fields)
  /-- PERFORM_IO_END, opcode 0x06. -/
  | performIoEnd (f : Fields)
  /-- PERFORM_IO_BEGIN_END, opcode 0x07. -/
  | performIoBeginEnd (f : Fields)
  deriving DecidableEq, Repr, Inhabited

/-- The operand fields of a command. -/
def Instr.fields : Instr → Fields
  | .echo f => f
  | .getCapabilities f => f
  | .setDelay f => f
  | .getStatus f => f
  | .performIo f => f
  | .performIoBegin f => f
  | .performIoEnd f => f
  | .performIoBeginEnd f => f

/-- The PERFORM_IO command with the given BEGIN and END flags (R92). -/
def Instr.performIoOf (begin_ end_ : Bool) (f : Fields) : Instr :=
  match begin_, end_ with
  | false, false => .performIo f
  | true, false => .performIoBegin f
  | false, true => .performIoEnd f
  | true, true => .performIoBeginEnd f

end Sys2Proof
end

