-- ==== Sys2Proof/Decode.lean ====
section
/-! DEFINITION. Decoding a control request and encoding a command (spec/30_encoding.md R90 to R102), the
byte-order helpers (spec/20_memory.md R61), and the command-sequence forms of R103. -/

namespace Sys2Proof

/-- The low byte of a 16-bit word. -/
def loByte (w : Word16) : Byte := w.extractLsb' 0 8

/-- The high byte of a 16-bit word. -/
def hiByte (w : Word16) : Byte := w.extractLsb' 8 8

/-- The 16-bit word of a low and a high byte: fields are little-endian (R61). -/
def word16 (lo hi : Byte) : Word16 := hi ++ lo

/-- `le16`: low byte first (R9). -/
def le16 (w : Word16) : List Byte := [loByte w, hiByte w]

/-- `le32`: lowest byte first (R9). -/
def le32 (w : Word32) : List Byte :=
  [w.extractLsb' 0 8, w.extractLsb' 8 8, w.extractLsb' 16 8, w.extractLsb' 24 8]

/-- The `wValue` field (R90). -/
def Packet.wValue (p : Packet) : Word16 := word16 p.wValueLo p.wValueHi

/-- The `wIndex` field (R90). -/
def Packet.wIndex (p : Packet) : Word16 := word16 p.wIndexLo p.wIndexHi

/-- The `wLength` field (R90). -/
def Packet.wLength (p : Packet) : Word16 := word16 p.wLengthLo p.wLengthHi

/-- The operand fields a packet carries. -/
def Packet.fields (p : Packet) : Fields :=
  { bmRequestType := p.bmRequestType, wValue := p.wValue, wIndex := p.wIndex, wLength := p.wLength }

/-- The packet's eight bytes in the order of R90. -/
def Packet.bytes (p : Packet) : List Byte :=
  [p.bmRequestType, p.bRequest, p.wValueLo, p.wValueHi, p.wIndexLo, p.wIndexHi, p.wLengthLo, p.wLengthHi]

/-- Why a request is not a command. -/
inductive DecodeError
  /-- The opcode is 0x08 to 0xFF (R100). -/
  | unknownOpcode (op : Byte)
  /-- The bytes are not the eight of the one format (R90, R101). -/
  | wrongLength (n : Nat)
  deriving DecidableEq, Repr

/-- The command a packet carries, by its opcode byte alone (R91, R101). -/
def decode (p : Packet) : Except DecodeError Instr :=
  match p.bRequest.toNat with
  | 0 => .ok (.echo p.fields)
  | 1 => .ok (.getCapabilities p.fields)
  | 2 => .ok (.setDelay p.fields)
  | 3 => .ok (.getStatus p.fields)
  | 4 => .ok (.performIo p.fields)
  | 5 => .ok (.performIoBegin p.fields)
  | 6 => .ok (.performIoEnd p.fields)
  | 7 => .ok (.performIoBeginEnd p.fields)
  | _ => .error (.unknownOpcode p.bRequest)

/-- The packet that eight bytes spell (R90). -/
def packetOfBytes : List Byte → Option Packet
  | [b0, b1, b2, b3, b4, b5, b6, b7] => some ⟨b0, b1, b2, b3, b4, b5, b6, b7⟩
  | _ => none

/-- The command that a list of bytes spells; any list of another length than eight is rejected (R101). -/
def decodeBytes (bs : List Byte) : Except DecodeError Instr :=
  match packetOfBytes bs with
  | some p => decode p
  | none => .error (.wrongLength bs.length)

/-- The opcode byte of a command (R91). -/
def Instr.opcode : Instr → Byte
  | .echo _ => 0x00
  | .getCapabilities _ => 0x01
  | .setDelay _ => 0x02
  | .getStatus _ => 0x03
  | .performIo _ => 0x04
  | .performIoBegin _ => 0x05
  | .performIoEnd _ => 0x06
  | .performIoBeginEnd _ => 0x07

/-- The packet of an opcode and its operand fields (R90). -/
def packetOf (op : Byte) (f : Fields) : Packet :=
  { bmRequestType := f.bmRequestType
    bRequest := op
    wValueLo := loByte f.wValue
    wValueHi := hiByte f.wValue
    wIndexLo := loByte f.wIndex
    wIndexHi := hiByte f.wIndex
    wLengthLo := loByte f.wLength
    wLengthHi := hiByte f.wLength }

/-- The packet that carries a command (R90, R91). -/
def encode (i : Instr) : Packet := packetOf i.opcode i.fields

/-- The packet whose bits are numbered as spec/opcode_table.json numbers them: its first word is the opcode
byte, so bits 7..0 are `bRequest`, bits 23..8 `wValue`, bits 39..24 `wIndex` and bits 55..40 `wLength`.
`bmRequestType`, which the table does not number, is 0 (log entry 8). -/
def packetOfTable (nbits w : Nat) : Packet :=
  let v := w % 2 ^ nbits
  packetOf (BitVec.ofNat 8 v)
    { bmRequestType := 0
      wValue := BitVec.ofNat 16 (v / 2 ^ 8)
      wIndex := BitVec.ofNat 16 (v / 2 ^ 24)
      wLength := BitVec.ofNat 16 (v / 2 ^ 40) }

/-- The command the decoder reads from a word numbered as the opcode table numbers it. -/
def decodeTableWord (nbits w : Nat) : Option Instr :=
  match decode (packetOfTable nbits w) with
  | .ok i => some i
  | .error _ => none

/-- `ECHO v` of R103. -/
def requestEcho (v : Word16) : Request :=
  ⟨encode (.echo { bmRequestType := 0xC1, wValue := v, wIndex := 0, wLength := 2 }), .read⟩

/-- `GET_CAPABILITIES` of R103. -/
def requestGetCapabilities : Request :=
  ⟨encode (.getCapabilities { bmRequestType := 0xC1, wValue := 0, wIndex := 0, wLength := 4 }), .read⟩

/-- `SET_DELAY d` of R103. -/
def requestSetDelay (d : Word16) : Request :=
  ⟨encode (.setDelay { bmRequestType := 0x41, wValue := d, wIndex := 0, wLength := 0 }), .write⟩

/-- `GET_STATUS` of R103. -/
def requestGetStatus : Request :=
  ⟨encode (.getStatus { bmRequestType := 0xC1, wValue := 0, wIndex := 0, wLength := 1 }), .read⟩

/-- `IO[.B][.E] R a n` of R103. -/
def requestRead (begin_ end_ : Bool) (a n : Word16) : Request :=
  ⟨encode (.performIoOf begin_ end_ { bmRequestType := 0xC1, wValue := 1, wIndex := a, wLength := n }), .read⟩

/-- `IO[.B][.E] W a [b0 b1 ...]` of R103, without the bytes: the transport offers them to the Pump. -/
def requestWrite (begin_ end_ : Bool) (a n : Word16) : Request :=
  ⟨encode (.performIoOf begin_ end_ { bmRequestType := 0x41, wValue := 0, wIndex := a, wLength := n }), .write⟩

end Sys2Proof
end

