-- ==== Sys2Proof/Machine/Operands.lean ====
section
/-! DEFINITION. The operand forms of the commands, read from the request as spec/30_encoding.md R92 to R97
give them. -/

namespace Sys2Proof.Machine

/-- Whether the opcode is one of PERFORM_IO's, `bRequest[7:2] = 0b000001` (R92). -/
def isPerformIo (op : Byte) : Bool := op.extractLsb' 2 6 == 1

/-- The BEGIN flag, `bRequest[0]` (R92); no rule reads it (R201). -/
def beginFlag (p : Packet) : Bool := p.bRequest.getLsbD 0

/-- The END flag, `bRequest[1]` (R92). -/
def endFlag (p : Packet) : Bool := p.bRequest.getLsbD 1

/-- The 7-bit slave address, `wIndex[6:0]` (R94). -/
def addr7 (p : Packet) : BitVec 7 := p.wIndex.extractLsb' 0 7

/-- The direction bit, `wValue[0]` (R95). -/
def dirBit (p : Packet) : BitVec 1 := p.wValue.extractLsb' 0 1

/-- The 8-bit wire address: the slave address in bits 7..1, the direction bit in bit 0 (R94). -/
def addr8 (p : Packet) : Byte := addr7 p ++ dirBit p

/-- The direction a PERFORM_IO selects: `wValue[0] = 1` is Read (R95; polarity PRESUMED, log entry 9). -/
def dirOf (p : Packet) : Dir := if dirBit p = 1 then .read else .write

/-- The length of a PERFORM_IO, `wLength` unsigned (R97). -/
def lengthOf (p : Packet) : Nat := p.wLength.toNat

/-- The delay of SET_DELAY in microseconds, `sint16(wValue)` (R96). -/
def delayOf (p : Packet) : Int := p.wValue.toInt

end Sys2Proof.Machine
end

