-- ==== Sys2Proof/Config.lean ====
section
/-! DEFINITION. What an implementation fixes and what the environment draws: the parameters of
spec/00_scope.md R8, the answers of the bus driver and of the transport (R10, R11), and the free values
that stand for every answer no script in the state supplies. Every constant is opaque: no proof can see
its value. -/

namespace Sys2Proof

/-- The prescaler tiers, in ascending order 1, 4, 16, 64 (R8, R27). -/
inductive Tier
  | t1
  | t4
  | t16
  | t64
  deriving DecidableEq, Repr, Inhabited

/-- The number a tier stands for. -/
def Tier.value : Tier → Nat
  | .t1 => 1
  | .t4 => 4
  | .t16 => 16
  | .t64 => 64

/-- Answer of `BusStart` (R11). -/
inductive StartAnswer
  | ack
  | nak
  deriving DecidableEq, Repr, Inhabited

/-- Answer of `BusSend` (R11). -/
inductive SendAnswer
  | ok
  | fail
  deriving DecidableEq, Repr, Inhabited

/-- Answer of `BusRecv` (R11). -/
inductive RecvAnswer
  | ok (b : Byte)
  | fail
  deriving DecidableEq, Repr, Inhabited

/-- What the transport offers the Pump in one scheduler pass: the free bytes of the IN chunk, and the bytes
of the OUT chunk received and not yet released (R10, R161). Zero bytes of either is not ready. -/
structure Offer where
  inSpace  : Nat
  outChunk : List Byte
  deriving DecidableEq, Repr, Inhabited

/-- One move of the environment: it delivers a control request (a Dispatcher step) or lets the polling loop
make one pass (a Pump step) (R7, R70). -/
inductive Turn
  | request (req : Request)
  | pass (offer : Offer)
  deriving DecidableEq, Repr, Inhabited

/-- One less than the chunk size, which is at least 1 (R8; open, D16). -/
opaque Config.chunkSizeLessOne : Nat

/-- `chunkSize`, a natural number of at least 1 (R8, R174). -/
def Config.chunkSize : Nat := Config.chunkSizeLessOne + 1

/-- `startTimeout`, the value passed to `BusStart` (R8, R147; open, D17). -/
opaque Config.startTimeout : Nat

/-- `clockFormula` of a tier and a target frequency (R8, R122; open, D10). -/
opaque Config.clockFormula : Tier → Int → Int

/-- `CAPS`, the capability word (R8, R192; open, D15). -/
opaque Config.caps : Word32

/-- Free value: the answer of the draw numbered `n` when it is a `BusStart` (R11, D18). -/
opaque Config.startDraw : Nat → StartAnswer

/-- Free value: the answer of the draw numbered `n` when it is a `BusSend` (R11, D18). -/
opaque Config.sendDraw : Nat → SendAnswer

/-- Free value: the answer of the draw numbered `n` when it is a `BusRecv` (R11, D18). -/
opaque Config.recvDraw : Nat → RecvAnswer

/-- Free value: the environment's move at the draw numbered `n` (R70, R236, D18). -/
opaque Config.turnDraw : Nat → Turn

end Sys2Proof
end

