-- ==== Sys2Proof/Machine/State.lean ====
section
/-! DEFINITION. The state of the machine as plain data: the block's own elements (spec/10_state.md R20 to R28),
the trace of its primitives (spec/00_scope.md R10, R11), and the model's own fields for the moves and the
answers of the environment. The block has no registers by number, no program counter and no addressable
memory (R29, R30, R60). -/

namespace Sys2Proof.Machine

/-- `TS`, the host-visible result of the last transaction (R20). -/
inductive TransactionStatus
  | unconfigured
  | idle
  | addressAcked
  | addressNaked
  deriving DecidableEq, Repr

/-- `IS`, the internal status that drives the pump (R23). `addressNaked` is transient: it is never the value
between two steps. -/
inductive InternalStatus
  | unconfigured
  | idle
  | running
  | readFailed
  | writeFailed
  | addressNaked
  deriving DecidableEq, Repr

/-- `PT`, the pending transfer (R25). -/
structure PendingTransfer where
  dir       : Dir
  remaining : Nat
  deferStop : Bool
  deriving DecidableEq, Repr

/-- The empty pending transfer, written as `(Write, 0, false)` (R25). -/
def PendingTransfer.empty : PendingTransfer := ⟨.write, 0, false⟩

/-- A prescaler tier with a divider value 0 to 255 (R27). -/
structure ClockConfig where
  tier      : Tier
  bitLength : Byte
  deriving DecidableEq, Repr

/-- The primitives of the bus driver (R11). -/
inductive BusPrimitive
  | start
  | stop
  | send
  | recv
  | setClock
  deriving DecidableEq, Repr

/-- One event of the trace: a call of a primitive with its answer, or an unanswered request (R10, R11). -/
inductive Event
  /-- A request arrived. -/
  | onControlRequest (req : Request)
  /-- The immediate data-stage reply of a fixed-size command. -/
  | usbReply (bytes : List Byte)
  /-- One byte appended to the current IN chunk. -/
  | usbPut (b : Byte)
  /-- One byte taken from the current OUT chunk. -/
  | usbTake (b : Byte)
  /-- The current chunk is finished. -/
  | usbChunkComplete
  /-- The status stage of the current request is ready. -/
  | usbStatusStage
  /-- A readiness query with its answer. -/
  | usbInReady (ready : Bool)
  /-- A readiness query with its answer. -/
  | usbOutReady (ready : Bool)
  /-- A query of the free bytes of the IN chunk, with its answer. -/
  | usbInSpace (n : Nat)
  /-- A query of the bytes of the OUT chunk not yet taken, with its answer. -/
  | usbOutAvail (n : Nat)
  /-- The request got neither a reply nor an acknowledge. -/
  | unanswered (req : Request)
  /-- A START, or a repeated START if the bus is held, with the wire address. -/
  | busStart (addr8 : Byte) (timeout : Nat) (answer : StartAnswer)
  /-- A STOP. -/
  | busStop
  /-- One data byte sent. -/
  | busSend (b : Byte) (answer : SendAnswer)
  /-- One data byte received; `last` makes the driver answer it with a NAK. -/
  | busRecv (last : Bool) (answer : RecvAnswer)
  /-- One write of the clock-divider register. -/
  | busSetClock (tier : Tier) (bitLength : Byte)
  deriving DecidableEq, Repr

/-- The environment's script, the model's own fields and not the spec's (log entries 2, 3, 7): the moves still to come and
the answers of the bus driver, each list oldest first. Where a list is empty the next item is a free value
of Config, numbered by `draws`. `busLimit` is how many more bus primitives return: `none` when all do. -/
structure Env where
  turns    : List Turn
  starts   : List StartAnswer
  sends    : List SendAnswer
  recvs    : List RecvAnswer
  draws    : Nat
  busLimit : Option Nat
  deriving DecidableEq, Repr

/-- The whole state. -/
structure State where
  /-- `TS` (R20). -/
  ts        : TransactionStatus
  /-- `IS` (R23). -/
  is        : InternalStatus
  /-- `PT` (R25). -/
  pt        : PendingTransfer
  /-- `CC`, `none` until the first successful SET_DELAY (R27). -/
  cc        : Option ClockConfig
  /-- The bus peripheral's clock-divider register, as the abstract pair (R28). -/
  clockReg  : ClockConfig
  /-- Direction in which the host runs the data stage of the request last delivered (R208). -/
  dataStage : Dir
  /-- The ordered events of the run, oldest first (R10, R11, R260). -/
  trace     : List Event
  /-- The environment's script. -/
  env       : Env
  deriving DecidableEq, Repr

/-- The state right after power-on (R260). The clock-divider register, which R28 leaves unspecified, is tier 1
with divider 0 (DESIGN CHOICE, log entry 5); `dataStage` is `write` (DESIGN CHOICE, log entry 4); the
environment's script is empty (DESIGN CHOICE, log entry 2). -/
def State.reset : State where
  ts := .unconfigured
  is := .unconfigured
  pt := .empty
  cc := none
  clockReg := ⟨.t1, 0⟩
  dataStage := .write
  trace := []
  env := { turns := [], starts := [], sends := [], recvs := [], draws := 0, busLimit := none }

/-- Why a run ends in a faulted state (R232), or stays in an unfinished step (R233). -/
inductive Fault
  /-- Raised by SET_DELAY when `wValue`, read as a signed number, is not positive (R193). Safe: the spec makes
  it undefined input and names this fault. -/
  | undefinedDelay (wValue : Word16)
  /-- Raised by PERFORM_IO while a transfer is in flight (R206). Safe: the spec names this fault. -/
  | overlappingTransfer (req : Request)
  /-- Raised by any other request but SET_DELAY while a transfer is in flight, by a PERFORM_IO whose data stage
  runs against `wValue[0]`, and by SET_DELAY with `wLength` not 0 (R206, R208, R209). Safe: the spec names this
  fault. -/
  | hostProtocolViolation (req : Request)
  /-- Raised by a step whose bus primitive never returns: the step stays unfinished and the run is stuck (R147,
  R233). Safe: nothing can be proved of what follows. -/
  | busNeverReturns (primitive : BusPrimitive)
  deriving DecidableEq, Repr

/-- Why the model gives an instruction no meaning. -/
inductive Refusal
  /-- Raised by an arm of `exec` whose instruction has no meaning yet; no arm does so. Safe. -/
  | notModelled (mnemonic : String)
  deriving DecidableEq, Repr

end Sys2Proof.Machine
end

