-- ==== Sys2Proof/Machine/Flags.lean ====
section
/-! DEFINITION. What is derived from the state: the block has no condition codes (spec/10_state.md R32), so
its flags are the status code, the transfer-in-flight and bus-held conditions, the control phase, and the
views of the trace. -/

namespace Sys2Proof.Machine

/-- The byte GET_STATUS returns for a status (R21; 0xFF for -1 PRESUMED, log entry 10). -/
def statusCode : TransactionStatus → Byte
  | .unconfigured => 0xFF
  | .idle => 0x00
  | .addressAcked => 0x01
  | .addressNaked => 0x02

/-- A transfer is in flight (R26). -/
def inFlight (s : State) : Bool := decide (0 < s.pt.remaining)

/-- The internal statuses in which the bus is held (R33). -/
def heldStatus : InternalStatus → Bool
  | .running => true
  | .readFailed => true
  | .writeFailed => true
  | .unconfigured => false
  | .idle => false
  | .addressNaked => false

/-- The bus is held: a START has been sent and no STOP since (R33). -/
def busHeld (s : State) : Bool := heldStatus s.is

/-- A byte-level failure is latched (R170). -/
def failureLatched (s : State) : Bool := s.is == .readFailed || s.is == .writeFailed

/-- The control-transfer phase (R31). -/
inductive Phase
  | noTransfer
  | dataIn (n : Nat)
  | dataOut (n : Nat)
  deriving DecidableEq, Repr

/-- The phase, derived from `PT` (R31). -/
def phase (s : State) : Phase :=
  if s.pt.remaining = 0 then .noTransfer
  else match s.pt.dir with
    | .read => .dataIn s.pt.remaining
    | .write => .dataOut s.pt.remaining

/-- `deferStop` of a PERFORM_IO: END is set and the length is not 0 (R199). -/
def deferStopOf (p : Packet) : Bool := endFlag p && decide (0 < lengthOf p)

/-- What a START on the wire is called: a repeated START exactly when the bus is held (R146). -/
inductive StartCondition
  | start
  | repeatedStart
  deriving DecidableEq, Repr

/-- The condition a `BusStart` issued in this state puts on the wire (R146). -/
def startCondition (s : State) : StartCondition := if busHeld s then .repeatedStart else .start

/-- A readiness query of the transport (R10), which the spec's vectors leave out of a trace. -/
def isQuery : Event → Bool
  | .usbInReady _ => true
  | .usbOutReady _ => true
  | .usbInSpace _ => true
  | .usbOutAvail _ => true
  | _ => false

/-- The events without the readiness queries (spec/95_test_vectors.md, Conventions). -/
def observed (es : List Event) : List Event := es.filter fun e => !isQuery e

/-- An event of the bus driver (R11). -/
def isBusEvent : Event → Bool
  | .busStart _ _ _ => true
  | .busStop => true
  | .busSend _ _ => true
  | .busRecv _ _ => true
  | .busSetClock _ _ => true
  | _ => false

/-- Whether the bus is open after one more event, read off the wire: a START opens it, a STOP closes it (R33). -/
def openAfter (was : Bool) : Event → Bool
  | .busStart _ _ _ => true
  | .busStop => false
  | _ => was

/-- Whether a transaction is open after these events: a START has been sent and no STOP since (R33, R146). -/
def traceOpen (es : List Event) : Bool := es.foldl openAfter false

/-- The bytes put to the host by these events, in order (R62). -/
def putBytes (es : List Event) : List Byte :=
  es.filterMap fun
    | .usbPut b => some b
    | _ => none

/-- The bytes taken from the host by these events, in order (R62). -/
def takenBytes (es : List Event) : List Byte :=
  es.filterMap fun
    | .usbTake b => some b
    | _ => none

/-- The bytes sent on the bus by these events, with their answers, in order (R62). -/
def sentBytes (es : List Event) : List (Byte × SendAnswer) :=
  es.filterMap fun
    | .busSend b a => some (b, a)
    | _ => none

/-- The bytes asked of the bus by these events, with the last-byte tag and the answer, in order (R163). -/
def receivedBytes (es : List Event) : List (Bool × RecvAnswer) :=
  es.filterMap fun
    | .busRecv l a => some (l, a)
    | _ => none

end Sys2Proof.Machine
end

