-- ==== Sys2Proof/Machine/Offers.lean ====
section
/-! DEFINITION. The bounds of spec/00_scope.md R10 on what the transport offers in one pass, and the cut that holds every
move of the environment to them (spec/20_memory.md R64; log entry 11). -/

namespace Sys2Proof

/-- The bounds of R10 on an offer: neither `UsbInSpace` nor `UsbOutAvail` exceeds `chunkSize`. -/
def Offer.legal (o : Offer) : Prop :=
  o.inSpace ≤ Config.chunkSize ∧ o.outChunk.length ≤ Config.chunkSize

/-- An offer cut to the bounds of R10. -/
def Offer.clamp (o : Offer) : Offer :=
  { inSpace := min o.inSpace Config.chunkSize, outChunk := o.outChunk.take Config.chunkSize }

/-- A turn whose offer keeps the bounds of R10. -/
def Turn.legal : Turn → Prop
  | .request _ => True
  | .pass o => o.legal

/-- A turn with its offer cut to the bounds of R10. -/
def Turn.clamp : Turn → Turn
  | .request req => .request req
  | .pass o => .pass o.clamp

end Sys2Proof
end

