-- ==== Sys2Proof/Machine/Ops.lean ====
section
/-! DEFINITION. The shared operations: sequencing, the trace, the environment's draws, the bus primitives
(spec/00_scope.md R11), the Bus Transaction Controller (spec/41_bus_transaction_controller.md R140 to R148),
and the admission of a request (spec/43_command_dispatcher.md R190), which is where a model fault is raised.
There is no trap, no vector and no return (spec/60_exceptions.md R237, R238). -/

namespace Sys2Proof.Machine

/-- The outcome of an operation that gives a value of type `α`. -/
abbrev Result (α : Type) := Host.Outcome α Fault Refusal

/-- Run `k` on the value of `r`; a fault or a refusal ends the step at once (R12). -/
def andThen {α β : Type} (r : Result α) (k : α → Result β) : Result β :=
  match r with
  | .next a => k a
  | .fault f => .fault f
  | .refused f => .refused f

/-! ## The trace and the block's elements -/

/-- Append one event to the trace (R10, R11). -/
def State.record (e : Event) (s : State) : State := { s with trace := s.trace ++ [e] }

/-- `TS <- v`. -/
def State.writeTs (v : TransactionStatus) (s : State) : State := { s with ts := v }

/-- `IS <- v`. -/
def State.writeIs (v : InternalStatus) (s : State) : State := { s with is := v }

/-- `PT <- v`. -/
def State.writePt (v : PendingTransfer) (s : State) : State := { s with pt := v }

/-- `CC <- c`. -/
def State.writeCc (c : ClockConfig) (s : State) : State := { s with cc := some c }

/-- The clock-divider register takes a new pair, in one write (R28, R65). -/
def State.writeClockReg (c : ClockConfig) (s : State) : State := { s with clockReg := c }

/-- The direction of the data stage of the request being delivered. -/
def State.writeDataStage (d : Dir) (s : State) : State := { s with dataStage := d }

/-- The environment's script after a draw. -/
def State.writeEnv (v : Env) (s : State) : State := { s with env := v }

/-- `PT.remaining <- PT.remaining - 1` (R162, R166). -/
def State.countDown (s : State) : State :=
  s.writePt { s.pt with remaining := s.pt.remaining - 1 }

/-- The request a command came from: its packet, and the direction of its data stage. -/
def requestOf (i : Instr) (s : State) : Request := ⟨encode i, s.dataStage⟩

/-! ## The environment's draws (R10, R11, D18) -/

/-- The number of the next free value is used up. -/
def Env.nextDraw (v : Env) : Env := { v with draws := v.draws + 1 }

/-- The environment's next move, from the script or else free; what a pass offers is held to the bounds of R10. -/
def takeTurn (s : State) : Turn × State :=
  match s.env.turns with
  | t :: rest => (t.clamp, s.writeEnv { s.env with turns := rest })
  | [] => ((Config.turnDraw s.env.draws).clamp, s.writeEnv s.env.nextDraw)

/-- The bus driver's answer to a `BusStart`. -/
def takeStart (s : State) : StartAnswer × State :=
  match s.env.starts with
  | a :: rest => (a, s.writeEnv { s.env with starts := rest })
  | [] => (Config.startDraw s.env.draws, s.writeEnv s.env.nextDraw)

/-- The bus driver's answer to a `BusSend`. -/
def takeSend (s : State) : SendAnswer × State :=
  match s.env.sends with
  | a :: rest => (a, s.writeEnv { s.env with sends := rest })
  | [] => (Config.sendDraw s.env.draws, s.writeEnv s.env.nextDraw)

/-- The bus driver's answer to a `BusRecv`. -/
def takeRecv (s : State) : RecvAnswer × State :=
  match s.env.recvs with
  | a :: rest => (a, s.writeEnv { s.env with recvs := rest })
  | [] => (Config.recvDraw s.env.draws, s.writeEnv s.env.nextDraw)

/-! ## The bus primitives (R11) -/

/-- The bus driver returns from a primitive, or the step stays unfinished (R147, R233). -/
def busCall (prim : BusPrimitive) (s : State) : Result State :=
  match s.env.busLimit with
  | none => .next s
  | some 0 => .fault (.busNeverReturns prim)
  | some (n + 1) => .next (s.writeEnv { s.env with busLimit := some n })

/-- `BusStart(addr8, startTimeout)`. -/
def busStart (addr : Byte) (s : State) : Result (StartAnswer × State) :=
  andThen (busCall .start s) fun s =>
    let r := takeStart s
    .next (r.1, r.2.record (.busStart addr Config.startTimeout r.1))

/-- `BusStop()`. -/
def busStop (s : State) : Result State :=
  andThen (busCall .stop s) fun s => .next (s.record .busStop)

/-- `BusSend(b)`. -/
def busSend (b : Byte) (s : State) : Result (SendAnswer × State) :=
  andThen (busCall .send s) fun s =>
    let r := takeSend s
    .next (r.1, r.2.record (.busSend b r.1))

/-- `BusRecv(last)`. -/
def busRecv (last : Bool) (s : State) : Result (RecvAnswer × State) :=
  andThen (busCall .recv s) fun s =>
    let r := takeRecv s
    .next (r.1, r.2.record (.busRecv last r.1))

/-- `BusSetClock(tier, bitLength)`: one write of the clock-divider register (R28). -/
def busSetClock (c : ClockConfig) (s : State) : Result State :=
  andThen (busCall .setClock s) fun s =>
    .next ((s.writeClockReg c).record (.busSetClock c.tier c.bitLength))

/-! ## The Bus Transaction Controller -/

/-- `stop()` (R143). -/
def stop (s : State) : Result State :=
  if s.is = .idle then .next s
  else andThen (busStop s) fun s => .next (s.writeIs .idle)

/-- `start(addr8, startTimeout)`, with whether the address was acknowledged (R141, R142). -/
def start (addr : Byte) (s : State) : Result (Bool × State) :=
  andThen (busStart addr s) fun r =>
    match r.1 with
    | .ack => .next (true, (r.2.writeIs .running).writeTs .addressAcked)
    | .nak =>
      andThen (stop ((r.2.writeIs .addressNaked).writeTs .addressNaked)) fun s => .next (false, s)

/-- `reset()` (R144). -/
def busReset (s : State) : Result State :=
  andThen (if s.is ≠ .unconfigured ∧ s.is ≠ .idle then stop s else .next s) fun s =>
    .next (s.writePt .empty)

/-! ## Admission of a request, and a request that gets no answer -/

/-- The host broke the contract on the data stage: a PERFORM_IO with bytes to move runs it against `wValue[0]`
(R208), or a SET_DELAY has one (R209). -/
def hostContractBroken (req : Request) : Bool :=
  (isPerformIo req.packet.bRequest && decide (0 < lengthOf req.packet)
    && req.dataStage != dirOf req.packet)
  || (req.packet.bRequest == 0x02 && req.packet.wLength != 0)

/-- The fault a request raises before its command runs, the first test that holds (R190, R206, R236). -/
def admission (req : Request) (s : State) : Option Fault :=
  if inFlight s && isPerformIo req.packet.bRequest then some (.overlappingTransfer req)
  else if inFlight s && req.packet.bRequest != 0x02 then some (.hostProtocolViolation req)
  else if hostContractBroken req then some (.hostProtocolViolation req)
  else none

/-- Run `body` if the request is admitted; otherwise raise its fault, which writes no state (R190, R232). -/
def admitted (req : Request) (s : State) (body : Result State) : Result State :=
  match admission req s with
  | some f => .fault f
  | none => body

/-- The request gets neither a reply nor an acknowledge (R10, R12). -/
def unanswered (req : Request) (s : State) : Result State := .next (s.record (.unanswered req))

/-- A request whose opcode is no command (R205). -/
def unknownCommand (req : Request) (s : State) : Result State :=
  admitted req s (unanswered req s)

end Sys2Proof.Machine
end

