-- ==== Sys2Proof/Machine/Deliver.lean ====
section
/-! DEFINITION. How a request reaches the Dispatcher (spec/00_scope.md R10, spec/43_command_dispatcher.md R190):
the delivery itself, and the placing of a request as the environment's next move. -/

namespace Sys2Proof.Machine

/-- `onControlRequest(req)`: the request and its data-stage direction are delivered, and the call is an event of
the trace (R10; log entry 6). -/
def deliver (req : Request) (s : State) : State :=
  (s.writeDataStage req.dataStage).record (.onControlRequest req)

/-- The request whose bits are numbered as the opcode table numbers them, with a data stage in the direction its
own `wValue[0]` selects (log entry 8). -/
def requestOfTable (nbits w : Nat) : Request :=
  ⟨packetOfTable nbits w, dirOf (packetOfTable nbits w)⟩

/-- The state in which the environment's next move is this request; its later moves are unchanged. -/
def placeRequest (req : Request) (s : State) : State :=
  s.writeEnv { s.env with turns := .request req :: s.env.turns }

end Sys2Proof.Machine
end

