-- ==== Sys2Proof/Machine/Clock.lean ====
section
/-! DEFINITION. The Clock Configurator (spec/40_clock_configurator.md R120 to R127). -/

namespace Sys2Proof.Machine

/-- The prescaler tiers in the order they are tried (R122). -/
def tierOrder : List Tier := [.t1, .t4, .t16, .t64]

/-- `1_000_000 div delay`, truncating toward zero (R121). -/
def targetFrequency (delay : Int) : Int := Int.tdiv 1000000 delay

/-- A divider value is accepted when it is in 0..255 (R123). -/
def acceptsDivider (b : Int) : Bool := decide (0 ≤ b) && decide (b ≤ 255)

/-- The first tier of the list whose divider value is accepted, with that value (R122). -/
def firstTier (formula : Tier → Int → Int) (f : Int) : List Tier → Option ClockConfig
  | [] => none
  | t :: rest =>
    if acceptsDivider (formula t f) then some ⟨t, BitVec.ofInt 8 (formula t f)⟩
    else firstTier formula f rest

/-- `computeClock` for a given formula; `none` is `InvalidDelay` (R120, R124). -/
def computeClockWith (formula : Tier → Int → Int) (delay : Int) : Option ClockConfig :=
  firstTier formula (targetFrequency delay) tierOrder

/-- `computeClock(delay)`; `none` is `InvalidDelay` (R120). -/
def computeClock (delay : Int) : Option ClockConfig := computeClockWith Config.clockFormula delay

end Sys2Proof.Machine
end

