-- ==== Sys2Proof/Machine/Delay.lean ====
section
/-! DEFINITION. SET_DELAY (spec/43_command_dispatcher.md R193 to R196). -/

namespace Sys2Proof.Machine

/-- The effects of a SET_DELAY whose delay gives a clock configuration, in the order of R194: the bus reset under the
old clock, the one register write, the statuses, the acknowledge. -/
def applyClock (c : ClockConfig) (s : State) : Result State :=
  andThen (busReset s) fun s =>
    andThen (busSetClock c s) fun s =>
      .next ((((s.writeCc c).writeIs .idle).writeTs .idle).record .usbStatusStage)

/-- `setDelay(req)` with the configurator's result: a fault for a delay that is not positive (R193), no answer and no
change for `InvalidDelay` (R195), else the new clock (R194). -/
def setDelayWith (clock : Option ClockConfig) (req : Request) (s : State) : Result State :=
  if delayOf req.packet ≤ 0 then .fault (.undefinedDelay req.packet.wValue)
  else match clock with
    | none => unanswered req s
    | some c => applyClock c s

/-- SET_DELAY, admitted also while a transfer is in flight (R196). -/
def execSetDelay (f : Fields) (s : State) : Result State :=
  let req := requestOf (.setDelay f) s
  admitted req s (setDelayWith (computeClock (delayOf req.packet)) req s)

end Sys2Proof.Machine
end

