-- ==== Sys2Proof/Machine/Query.lean ====
section
/-! DEFINITION. The commands with an immediate reply: ECHO, GET_CAPABILITIES and GET_STATUS
(spec/43_command_dispatcher.md R191, R192, R197). -/

namespace Sys2Proof.Machine

/-- `UsbReply(bytes)`: the immediate data-stage reply (R10). -/
def usbReply (bytes : List Byte) (s : State) : Result State := .next (s.record (.usbReply bytes))

/-- ECHO: reply with `wValue`, low byte first (R191). -/
def execEcho (f : Fields) (s : State) : Result State :=
  let req := requestOf (.echo f) s
  admitted req s (usbReply (le16 req.packet.wValue) s)

/-- GET_CAPABILITIES: reply with `CAPS`, low byte first (R192). -/
def execGetCapabilities (f : Fields) (s : State) : Result State :=
  let req := requestOf (.getCapabilities f) s
  admitted req s (usbReply (le32 Config.caps) s)

/-- GET_STATUS: reply with the code of `TS` (R197). -/
def execGetStatus (f : Fields) (s : State) : Result State :=
  let req := requestOf (.getStatus f) s
  admitted req s (usbReply [statusCode s.ts] s)

end Sys2Proof.Machine
end

