-- ==== Sys2Proof/Machine/Transfer.lean ====
section
/-! DEFINITION. PERFORM_IO with its four flag variants (spec/43_command_dispatcher.md R198 to R204). -/

namespace Sys2Proof.Machine

/-- After `start` and the stops: arm the pump, or complete a zero-length request in its own step (R199, R200). -/
def armOrAcknowledge (p : Packet) (s : State) : State :=
  if 0 < lengthOf p then s.writePt ⟨dirOf p, lengthOf p, deferStopOf p⟩
  else s.record .usbStatusStage

/-- `performIO(req)` (R199): no answer while unconfigured; else `start`, the redundant stop of a failed start, the
immediate stop of a zero-length request with END (R202), and the arming or the acknowledge. -/
def performIo (req : Request) (s : State) : Result State :=
  if s.ts = .unconfigured then unanswered req s
  else
    andThen (start (addr8 req.packet) s) fun r =>
      andThen (if r.1 then .next r.2 else stop r.2) fun s =>
        andThen (if endFlag req.packet ∧ lengthOf req.packet = 0 then stop s else .next s) fun s =>
          .next (armOrAcknowledge req.packet s)

/-- PERFORM_IO (R199). -/
def execPerformIo (f : Fields) (s : State) : Result State :=
  let req := requestOf (.performIo f) s
  admitted req s (performIo req s)

/-- PERFORM_IO with BEGIN, which no rule reads (R201). -/
def execPerformIoBegin (f : Fields) (s : State) : Result State :=
  let req := requestOf (.performIoBegin f) s
  admitted req s (performIo req s)

/-- PERFORM_IO with END (R202). -/
def execPerformIoEnd (f : Fields) (s : State) : Result State :=
  let req := requestOf (.performIoEnd f) s
  admitted req s (performIo req s)

/-- PERFORM_IO with BEGIN and END. -/
def execPerformIoBeginEnd (f : Fields) (s : State) : Result State :=
  let req := requestOf (.performIoBeginEnd f) s
  admitted req s (performIo req s)

end Sys2Proof.Machine
end

