-- ==== Sys2Proof/Machine/Dispatch.lean ====
section
/-! DEFINITION. The dispatch of a decoded command to its meaning (spec/43_command_dispatcher.md R190). -/

namespace Sys2Proof.Machine

def exec (i : Instr) (s : State) : Host.Outcome State Fault Refusal :=
  match i with
  | .echo f => Sys2Proof.Machine.execEcho f s
  | .getCapabilities f => Sys2Proof.Machine.execGetCapabilities f s
  | .setDelay f => Sys2Proof.Machine.execSetDelay f s
  | .getStatus f => Sys2Proof.Machine.execGetStatus f s
  | .performIo f => Sys2Proof.Machine.execPerformIo f s
  | .performIoBegin f => Sys2Proof.Machine.execPerformIoBegin f s
  | .performIoEnd f => Sys2Proof.Machine.execPerformIoEnd f s
  | .performIoBeginEnd f => Sys2Proof.Machine.execPerformIoBeginEnd f s

end Sys2Proof.Machine
end

