-- ==== Sys2Proof/Machine/Dispatcher.lean ====
section
/-! DEFINITION. The Dispatcher step of one delivered request (spec/43_command_dispatcher.md R190). -/

namespace Sys2Proof.Machine

/-- Run the command the request decodes to, or leave an unknown opcode unanswered (R190, R205). -/
def dispatch (req : Request) (s : State) : Host.Outcome State Fault Refusal :=
  match decode req.packet with
  | .ok i => exec i (deliver req s)
  | .error _ => unknownCommand req (deliver req s)

end Sys2Proof.Machine
end

