-- ==== Sys2Proof/Machine/Pump.lean ====
section
/-! DEFINITION. The Transfer Continuation Engine, the byte pump (spec/42_transfer_continuation.md R160 to
R174). -/

namespace Sys2Proof.Machine

/-- The byte put to the host in place of one the bus did not supply (R164, R165). -/
def fillerByte : Byte := 0xFF

/-- A byte of a read pass once it is counted: receive it if the bus is running and put it, or put the filler (R163 to
R165). -/
def receiveOrFill (s : State) : Result State :=
  if s.is = .running then
    andThen (busRecv (decide (s.pt.remaining = 0)) s) fun r =>
      match r.1 with
      | .fail => .next ((r.2.writeIs .readFailed).record (.usbPut fillerByte))
      | .ok b => .next (r.2.record (.usbPut b))
  else .next (s.record (.usbPut fillerByte))

/-- One byte of a read pass: the count falls before the bus read (R162, R163). -/
def readByte (s : State) : Result State := receiveOrFill s.countDown

/-- `readPass()` with `space` free bytes in the IN chunk (R162). -/
def readPass : Nat → State → Result State
  | 0, s => if s.pt.remaining = 0 then .next s else .next (s.record (.usbInSpace 0))
  | space + 1, s =>
    if s.pt.remaining = 0 then .next s
    else andThen (readByte (s.record (.usbInSpace (space + 1)))) (readPass space)

/-- A byte of a write pass once it is taken: send it if the bus is running, else discard it (R167, R168). -/
def sendOrDiscard (b : Byte) (s : State) : Result State :=
  if s.is = .running then
    andThen (busSend b s) fun r =>
      match r.1 with
      | .fail => .next (r.2.writeIs .writeFailed)
      | .ok => .next r.2
  else .next s

/-- One byte of a write pass: count down and take it from the transport (R166). -/
def writeByte (b : Byte) (s : State) : Result State := sendOrDiscard b (s.countDown.record (.usbTake b))

/-- `writePass()` with the bytes of the OUT chunk not yet taken (R166). -/
def writePass : List Byte → State → Result State
  | [], s => if s.pt.remaining = 0 then .next s else .next (s.record (.usbOutAvail 0))
  | b :: rest, s =>
    if s.pt.remaining = 0 then .next s
    else andThen (writeByte b (s.record (.usbOutAvail (rest.length + 1)))) (writePass rest)

/-- The first action of a completion: a latched byte failure becomes the NAK code (R170). -/
def collapseFailure (s : State) : State := if failureLatched s then s.writeTs .addressNaked else s

/-- `complete()` (R170). -/
def complete (s : State) : Result State :=
  andThen (if (collapseFailure s).pt.deferStop then stop (collapseFailure s) else .next (collapseFailure s)) fun s =>
    .next ((if s.pt.dir = .write then s.record .usbStatusStage else s).writePt .empty)

/-- The transfer completes when no byte remains (R160). -/
def completeIfDone (s : State) : Result State := if s.pt.remaining = 0 then complete s else .next s

/-- After a pass that moved bytes: the chunk is complete, then the completion (R169). -/
def endPass (s : State) : Result State := completeIfDone (s.record .usbChunkComplete)

/-- A pass of a read transfer, with `space` free bytes in the IN chunk; none is not ready (R161). -/
def readOffer (space : Nat) (s : State) : Result State :=
  if space = 0 then .next s else andThen (readPass space s) endPass

/-- A pass of a write transfer, with the bytes of the OUT chunk; none is not ready (R161). -/
def writeOffer (chunk : List Byte) (s : State) : Result State :=
  if chunk = [] then .next s else andThen (writePass chunk s) endPass

/-- `pump()`: one scheduler pass with what the transport offers (R160, R161). -/
def pump (offer : Offer) (s : State) : Result State :=
  if s.pt.remaining = 0 then .next s
  else match s.pt.dir with
    | .read => readOffer offer.inSpace (s.record (.usbInReady (decide (0 < offer.inSpace))))
    | .write => writeOffer offer.outChunk (s.record (.usbOutReady (decide (0 < offer.outChunk.length))))

end Sys2Proof.Machine
end

