-- ==== Sys2Proof/Machine/Step.lean ====
section
/-! DEFINITION. One step: the environment's next move is a request, which the Dispatcher handles, or a scheduler
pass of the Pump; each is atomic (spec/20_memory.md R70, spec/43_command_dispatcher.md R190,
spec/42_transfer_continuation.md R160). -/

namespace Sys2Proof.Machine

/-- One step of the machine. -/
def step (s : State) : Host.Outcome State Fault Refusal :=
  match takeTurn s with
  | (.request req, s) => dispatch req s
  | (.pass offer, s) => pump offer s

/-- The state in which the environment's next move is the request of a table word. -/
def State.withFetchWord (s : State) (nbits w : Nat) : State :=
  placeRequest (requestOfTable nbits w) s

end Sys2Proof.Machine
end

