-- ==== Sys2Proof/WellFormed.lean ====
section
/-! DEFINITION. Well-formed commands: those whose own fields keep the host's contract whatever the state of
the block (spec/43_command_dispatcher.md R193, R209, spec/70_reset_and_hazards.md R267). An ill-formed
command still decodes; its meaning is the model fault the spec names (log entry 16). -/

namespace Sys2Proof

/-- The host sends SET_DELAY with `wLength = 0` (R209). -/
def delayLengthOk (f : Fields) : Bool := f.wLength == 0

/-- The host sends SET_DELAY with a positive delay, read as a signed 16-bit number (R193, R267). -/
def delayValueOk (f : Fields) : Bool := decide (0 < f.wValue.toInt)

/-- The command's own fields keep the host's contract. Only SET_DELAY has a form of its fields that the
contract excludes; the other commands accept every value of every field (R99, R209). -/
def Instr.wellFormed : Instr → Bool
  | .echo _ => true
  | .getCapabilities _ => true
  | .setDelay f => delayLengthOk f && delayValueOk f
  | .getStatus _ => true
  | .performIo _ => true
  | .performIoBegin _ => true
  | .performIoEnd _ => true
  | .performIoBeginEnd _ => true

end Sys2Proof
end

