-- ==== Sys2Proof/Safety.lean ====
section
/-! DEFINITION. What claims about runs are stated in: the invariant every step keeps, the quiescent state and the
observation of a run (spec/70_reset_and_hazards.md R270), the outcome of a request
(spec/43_command_dispatcher.md R207), and the fields a command uses (spec/30_encoding.md R93, R99). -/

namespace Sys2Proof.Machine

/-- What holds of the state between any two steps. -/
structure StateInv (s : State) : Prop where
  /-- `AddressNaked` is never the value of `IS` between two steps (R23). -/
  notTransient : s.is ≠ .addressNaked
  /-- `TS` and `IS` leave `Unconfigured` together (R35). -/
  configured : s.ts = .unconfigured ↔ s.is = .unconfigured
  /-- `TS` leaves `Unconfigured` when there is a clock (R35). -/
  clocked : s.ts = .unconfigured ↔ s.cc = none
  /-- An unconfigured block has no transfer (R35). -/
  noTransfer : s.ts = .unconfigured → s.pt.remaining = 0
  /-- `PT.remaining` is a 16-bit count (R25). -/
  inRange : s.pt.remaining ≤ 65535
  /-- An empty `PT` is written as `(Write, 0, false)` (R25). -/
  canonical : s.pt.remaining = 0 → s.pt = .empty
  /-- The clock-divider register holds the configuration last written (R28). -/
  clockWritten : ∀ c, s.cc = some c → s.clockReg = c
  /-- The bus is held by `IS` exactly when the trace shows a START with no STOP since (R33, R146). -/
  heldOnWire : busHeld s = traceOpen s.trace
  /-- A transfer whose bus is stopped is one whose address got no acknowledge (R204). -/
  nakedTransfer : 0 < s.pt.remaining → s.is = .idle → s.ts = .addressNaked

/-- Every scripted offer keeps the bounds of R10, so that none is cut when its turn comes. -/
def legalScript (s : State) : Prop := ∀ t ∈ s.env.turns, t.legal

/-- No transfer is in flight; every state of the model lies between two steps and is no fault (R270). -/
def quiescent (s : State) : Bool := decide (s.pt.remaining = 0)

/-- The observation of a run that ends in a quiescent state (R270). -/
def observation (s : State) : List Event × TransactionStatus × InternalStatus × Option ClockConfig :=
  (s.trace, s.ts, s.is, s.cc)

/-- A run of `k` steps that raises no fault and ends in `t`. -/
def runsTo (k : Nat) (s t : State) : Prop := Host.Core.run Sys2Proof.core k s = .next t

/-- The USB data stage of a PERFORM_IO is empty or runs in the direction `wValue[0]` selects, 1 for Read (R95, R208). -/
def directionAgrees (f : Fields) (s : State) : Prop :=
  f.wLength = 0 ∨ s.dataStage = (if f.wValue.getLsbD 0 then .read else .write)

/-- The host keeps its contract on a command in this state: it waits for a transfer in flight, except with SET_DELAY
(R206), and runs a PERFORM_IO's data stage in the direction `wValue[0]` selects (R208). -/
def hostKeepsContract (i : Instr) (s : State) : Prop :=
  match i with
  | .echo _ => s.pt.remaining = 0
  | .getCapabilities _ => s.pt.remaining = 0
  | .setDelay _ => True
  | .getStatus _ => s.pt.remaining = 0
  | .performIo f => s.pt.remaining = 0 ∧ directionAgrees f s
  | .performIoBegin f => s.pt.remaining = 0 ∧ directionAgrees f s
  | .performIoEnd f => s.pt.remaining = 0 ∧ directionAgrees f s
  | .performIoBeginEnd f => s.pt.remaining = 0 ∧ directionAgrees f s

/-- The outcome a request moves to (R207). -/
inductive ControlOutcome
  | replied (bytes : List Byte)
  | acked
  | streamingIn (n : Nat)
  | streamingOut (n : Nat)
  | unanswered
  | faulted (f : Fault)
  deriving DecidableEq, Repr

/-- The outcome of a PERFORM_IO that is admitted, by the table of R207. -/
def ioOutcome (f : Fields) (s : State) : ControlOutcome :=
  if s.ts = .unconfigured then .unanswered
  else if f.wLength = 0 then .acked
  else if f.wValue.getLsbD 0 then .streamingIn f.wLength.toNat
  else .streamingOut f.wLength.toNat

/-- The outcome of a command by the table of R207. -/
def controlOutcome (i : Instr) (s : State) : ControlOutcome :=
  match admission (requestOf i s) s with
  | some r => .faulted r
  | none =>
    match i with
    | .echo f => .replied (le16 f.wValue)
    | .getCapabilities _ => .replied (le32 Config.caps)
    | .getStatus _ => .replied [statusCode s.ts]
    | .setDelay f =>
      if f.wValue.toInt ≤ 0 then .faulted (.undefinedDelay f.wValue)
      else if computeClock f.wValue.toInt = none then .unanswered
      else .acked
    | .performIo f => ioOutcome f s
    | .performIoBegin f => ioOutcome f s
    | .performIoEnd f => ioOutcome f s
    | .performIoBeginEnd f => ioOutcome f s

/-- How an outcome of R207 shows in what a step answers from `s`: the reply is the one new event; the acknowledge
is the last new event, with no transfer left; a streaming transfer is in flight with no reply and no acknowledge;
an unanswered request changes nothing but the trace; a fault is the step's own. -/
def showsOutcome (i : Instr) (s : State) (r : Result State) : ControlOutcome → Prop
  | .replied bytes => r = .next (s.record (.usbReply bytes))
  | .acked => ∃ t es, r = .next t ∧ t.trace = s.trace ++ es ++ [.usbStatusStage]
      ∧ .usbStatusStage ∉ es ∧ phase t = .noTransfer
  | .streamingIn n => ∃ t es, r = .next t ∧ t.trace = s.trace ++ es
      ∧ .usbStatusStage ∉ es ∧ phase t = .dataIn n
  | .streamingOut n => ∃ t es, r = .next t ∧ t.trace = s.trace ++ es
      ∧ .usbStatusStage ∉ es ∧ phase t = .dataOut n
  | .unanswered => r = .next (s.record (.unanswered (requestOf i s)))
  | .faulted f => r = .fault f

/-- The fields of two packets that PERFORM_IO uses agree (R93): the direction bit, the slave address, the length. -/
def sameIoFields (f g : Fields) : Prop :=
  f.wValue.getLsbD 0 = g.wValue.getLsbD 0
    ∧ f.wIndex.extractLsb' 0 7 = g.wIndex.extractLsb' 0 7 ∧ f.wLength = g.wLength

/-- Two commands that differ only in what the block does not read: the fields a command does not use (R93, R99), the
request type (R102) and the BEGIN flag (R201). -/
def sameUsed : Instr → Instr → Prop
  | .echo f, .echo g => f.wValue = g.wValue
  | .getCapabilities _, .getCapabilities _ => True
  | .getStatus _, .getStatus _ => True
  | .setDelay f, .setDelay g => f.wValue = g.wValue ∧ f.wLength = g.wLength
  | .performIo f, .performIo g => sameIoFields f g
  | .performIo f, .performIoBegin g => sameIoFields f g
  | .performIoBegin f, .performIo g => sameIoFields f g
  | .performIoBegin f, .performIoBegin g => sameIoFields f g
  | .performIoEnd f, .performIoEnd g => sameIoFields f g
  | .performIoEnd f, .performIoBeginEnd g => sameIoFields f g
  | .performIoBeginEnd f, .performIoEnd g => sameIoFields f g
  | .performIoBeginEnd f, .performIoBeginEnd g => sameIoFields f g
  | _, _ => False

/-- An event without the record of which request it belongs to. -/
def eraseRequest : Event → Event
  | .onControlRequest _ => .onControlRequest default
  | .unanswered _ => .unanswered default
  | e => e

/-- A fault without the record of which request raised it. -/
def eraseFault : Fault → Fault
  | .overlappingTransfer _ => .overlappingTransfer default
  | .hostProtocolViolation _ => .hostProtocolViolation default
  | f => f

/-- What a step answers, without the records of which request it was. -/
def eraseOutcome : Result State → Result State
  | .next s => .next { s with trace := s.trace.map eraseRequest }
  | .fault f => .fault (eraseFault f)
  | .refused r => .refused r

/-- The byte the host gets for an answer of `BusRecv` (R164). -/
def deliveredByte : RecvAnswer → Byte
  | .ok b => b
  | .fail => 0xFF

/-- The answers of `BusRecv` to a read whose bytes all arrive, the last one tagged (R163). -/
def taggedReads (bs : List Byte) : List Event :=
  bs.mapIdx fun k b => .busRecv (decide (k + 1 = bs.length)) (.ok b)

/-- The bytes of IN space that a list of passes offers in all, each pass at most a chunk (R10). -/
def totalSpace (os : List Offer) : Nat := (os.map fun o => o.clamp.inSpace).sum

/-- The OUT bytes that a list of passes offers, in order, each pass at most a chunk (R10). -/
def totalBytes (os : List Offer) : List Byte := os.flatMap fun o => o.clamp.outChunk

end Sys2Proof.Machine
end

