-- ==== Sys2Proof/Certificates/Slice0/Obligations.lean ====
section
/-! DEFINITION. The statements for the provers. Each says which rule of spec/ it formalises or rests on. Where a
statement speaks of a bus driver that returns from every call, its premise is `env.busLimit = none`. -/

open Sys2Proof Sys2Proof.Machine

/-! ## Encoding -/

/-- Requests written out in spec/95_test_vectors.md decode to the commands they stand for; 0x10 is no command (R90,
R91, R100). Rests on log entry 1. -/
def Obligations.SpecRequestsDecode : Prop :=
  decodeBytes [0xC1, 0x00, 0x34, 0x12, 0x00, 0x00, 0x02, 0x00] = .ok (.echo ⟨0xC1, 0x1234, 0x0000, 2⟩)
  ∧ decodeBytes [0xC1, 0x01, 0x00, 0x00, 0x00, 0x00, 0x04, 0x00] = .ok (.getCapabilities ⟨0xC1, 0x0000, 0x0000, 4⟩)
  ∧ decodeBytes [0x41, 0x02, 0xB8, 0x0B, 0x00, 0x00, 0x00, 0x00] = .ok (.setDelay ⟨0x41, 3000, 0x0000, 0⟩)
  ∧ decodeBytes [0xC1, 0x03, 0x00, 0x00, 0x00, 0x00, 0x01, 0x00] = .ok (.getStatus ⟨0xC1, 0x0000, 0x0000, 1⟩)
  ∧ decodeBytes [0x41, 0x04, 0x00, 0x00, 0x50, 0x00, 0x01, 0x00] = .ok (.performIo ⟨0x41, 0x0000, 0x0050, 1⟩)
  ∧ decodeBytes [0x41, 0x05, 0x00, 0x00, 0x50, 0x00, 0x01, 0x00] = .ok (.performIoBegin ⟨0x41, 0x0000, 0x0050, 1⟩)
  ∧ decodeBytes [0xC1, 0x06, 0x01, 0x00, 0x50, 0x00, 0x02, 0x00] = .ok (.performIoEnd ⟨0xC1, 0x0001, 0x0050, 2⟩)
  ∧ decodeBytes [0xC1, 0x07, 0x01, 0x00, 0x68, 0x00, 0x0A, 0x00] = .ok (.performIoBeginEnd ⟨0xC1, 0x0001, 0x0068, 10⟩)
  ∧ decodeBytes [0xC1, 0x10, 0x00, 0x00, 0x00, 0x00, 0x00, 0x00] = .error (.unknownOpcode 0x10)
  ∧ decodeBytes [0xC1, 0x00, 0x34] = .error (.wrongLength 3)

/-- Every command is read back from the eight bytes that carry it, with every field at every value (R90, R91). Rests
on log entry 1. -/
def Obligations.DecodeInvertsEncode : Prop :=
  ∀ i : Instr, (encode i).bytes.length = 8 ∧ decodeBytes (encode i).bytes = .ok i

/-- Bytes that decode to a command are the bytes that carry it, so no two encodings overlap (R91, R101). Rests on log
entry 1. -/
def Obligations.EncodeInvertsDecode : Prop :=
  ∀ (bs : List Byte) (i : Instr), decodeBytes bs = .ok i → (encode i).bytes = bs

/-- The commands are the opcodes 0 to 7, whatever the other bytes hold; any other opcode is rejected by name (R38,
R91, R100, R101). -/
def Obligations.OpcodeSelectsCommand : Prop :=
  ∀ p : Packet, (p.bRequest.toNat ≤ 7 → ∃ i, decode p = .ok i ∧ i.opcode = p.bRequest ∧ i.fields = p.fields)
    ∧ (8 ≤ p.bRequest.toNat → decode p = .error (.unknownOpcode p.bRequest))

/-- PERFORM_IO is match 0x04 under mask 0xFC; bit 0 of its opcode is BEGIN and bit 1 is END; the opcodes 1, 2 and 3
are not PERFORM_IO (R92). -/
def Obligations.PerformIoOpcodeBits : Prop :=
  (∀ op : Byte, isPerformIo op = true ↔ op &&& 0xFC = 0x04)
  ∧ (∀ (b e : Bool) (f : Fields), isPerformIo (encode (.performIoOf b e f)).bRequest = true
      ∧ beginFlag (encode (.performIoOf b e f)) = b ∧ endFlag (encode (.performIoOf b e f)) = e)
  ∧ isPerformIo 0x01 = false ∧ isPerformIo 0x02 = false ∧ isPerformIo 0x03 = false

/-- The wire address is the 7-bit slave address shifted left, OR'd with the direction bit (R94). -/
def Obligations.WireAddressOfRequest : Prop :=
  ∀ p : Packet,
    addr7 p = p.wIndex.extractLsb' 0 7
    ∧ addr8 p = ((((addr7 p).setWidth 16 <<< 1) ||| (p.wValue &&& 1)).extractLsb' 0 8)
    ∧ (addr8 p).extractLsb' 1 7 = p.wIndex.extractLsb' 0 7
    ∧ (addr8 p).getLsbD 0 = p.wValue.getLsbD 0

/-- The direction, the length and the delay a request carries (R95, R96, R97). Rests on log entries 9, 20. -/
def Obligations.TransferOperandsOfRequest : Prop :=
  ∀ p : Packet,
    (dirOf p = .read ↔ p.wValue.getLsbD 0 = true)
    ∧ lengthOf p = p.wLength.toNat ∧ lengthOf p ≤ 65535
    ∧ delayOf p = (if p.wValue.toNat < 32768 then (p.wValue.toNat : Int) else (p.wValue.toNat : Int) - 65536)

/-! ## The step -/

/-- When the environment's next move delivers a request that decodes to `i`, the step is `exec i` of the state that has
taken the move, the request's data-stage direction, and the event of its arrival (R190, R10).
Rests on log entries 2, 4, 6. -/
def Obligations.StepRunsDecodedCommand : Prop :=
  ∀ (s : State) (req : Request) (rest : List Turn) (i : Instr),
    s.env.turns = .request req :: rest → decode req.packet = .ok i →
    step s = exec i { s with
      dataStage := req.dataStage
      trace := s.trace ++ [.onControlRequest req]
      env := { s.env with turns := rest } }

/-- When the environment's next move is a scheduler pass, the step is one pump pass with what it offers, held to
`chunkSize` bytes; an offer within that bound is the whole of it (R10, R64, R160, R70). Rests on log entries 2, 11. -/
def Obligations.StepRunsPumpPass : Prop :=
  ∀ (s : State) (o : Offer) (rest : List Turn), s.env.turns = .pass o :: rest →
    step s = pump ⟨min o.inSpace Config.chunkSize, o.outChunk.take Config.chunkSize⟩
      { s with env := { s.env with turns := rest } }
    ∧ (o.inSpace ≤ Config.chunkSize → o.outChunk.length ≤ Config.chunkSize →
        step s = pump o { s with env := { s.env with turns := rest } })

/-- When the script of moves is empty, the step is that of a free move within the bounds of R10; the counter of draws
advances. The free move is the model's (log entry 2), and nothing is said of its value. -/
def Obligations.EmptyScriptDrawsFreeMove : Prop :=
  ∀ s : State, s.env.turns = [] →
    (takeTurn s).1 = (Config.turnDraw s.env.draws).clamp ∧ (takeTurn s).1.legal
    ∧ step s = step { s with
        env := { s.env with turns := [(Config.turnDraw s.env.draws).clamp], draws := s.env.draws + 1 } }

/-- A table word placed with `withFetchWord` is what the next step runs (log entry 8). -/
def Obligations.PlacedWordRunsNext : Prop :=
  ∀ (s : State) (nbits w : Nat) (i : Instr), decodeTableWord nbits w = some i →
    step (s.withFetchWord nbits w) = exec i { s with
      dataStage := (requestOfTable nbits w).dataStage
      trace := s.trace ++ [.onControlRequest (requestOfTable nbits w)] }

/-- The answers of the bus driver are the script's, in order, and then free values; a draw changes nothing but the
script (D18; log entries 2 and 3). -/
def Obligations.BusAnswersAreDrawnInOrder : Prop :=
  ∀ s : State,
    (∀ a rest, s.env.starts = a :: rest → takeStart s = (a, { s with env := { s.env with starts := rest } }))
    ∧ (s.env.starts = [] →
        takeStart s = (Config.startDraw s.env.draws, { s with env := { s.env with draws := s.env.draws + 1 } }))
    ∧ (∀ a rest, s.env.sends = a :: rest → takeSend s = (a, { s with env := { s.env with sends := rest } }))
    ∧ (s.env.sends = [] →
        takeSend s = (Config.sendDraw s.env.draws, { s with env := { s.env with draws := s.env.draws + 1 } }))
    ∧ (∀ a rest, s.env.recvs = a :: rest → takeRecv s = (a, { s with env := { s.env with recvs := rest } }))
    ∧ (s.env.recvs = [] →
        takeRecv s = (Config.recvDraw s.env.draws, { s with env := { s.env with draws := s.env.draws + 1 } }))

/-- A request with an unknown opcode and no transfer in flight is left unanswered: the step writes no state of the
block and issues no primitive (R205, R10). Rests on log entries 2, 4, 6. -/
def Obligations.UnknownOpcodeIsUnanswered : Prop :=
  ∀ (s : State) (req : Request) (rest : List Turn),
    s.env.turns = .request req :: rest → 8 ≤ req.packet.bRequest.toNat → s.pt.remaining = 0 →
    step s = .next { s with
      dataStage := req.dataStage
      trace := s.trace ++ [.onControlRequest req, .unanswered req]
      env := { s.env with turns := rest } }

/-! ## The commands with an immediate reply -/

/-- ECHO replies with `wValue`, low byte first, in every status, and changes nothing else (R191). -/
def Obligations.EchoRepliesVerbatim : Prop :=
  ∀ (f : Fields) (s : State), s.pt.remaining = 0 →
    exec (.echo f) s = .next { s with
      trace := s.trace ++ [.usbReply [f.wValue.extractLsb' 0 8, f.wValue.extractLsb' 8 8]] }

/-- GET_CAPABILITIES replies with the four bytes of the capability word, low byte first, and changes nothing else
(R192, R98). -/
def Obligations.GetCapabilitiesRepliesMask : Prop :=
  ∀ (f : Fields) (s : State), s.pt.remaining = 0 →
    exec (.getCapabilities f) s = .next { s with
      trace := s.trace ++ [.usbReply [Config.caps.extractLsb' 0 8, Config.caps.extractLsb' 8 8,
        Config.caps.extractLsb' 16 8, Config.caps.extractLsb' 24 8]] }

/-- GET_STATUS replies with the code of the status and changes nothing, so it does not clear the status (R197, R21).
Rests on log entry 10. -/
def Obligations.GetStatusRepliesCode : Prop :=
  ∀ (f : Fields) (s : State), s.pt.remaining = 0 →
    exec (.getStatus f) s = .next { s with
      trace := s.trace ++ [.usbReply [match s.ts with
        | .unconfigured => 0xFF
        | .idle => 0x00
        | .addressAcked => 0x01
        | .addressNaked => 0x02]] }

/-! ## SET_DELAY -/

/-- SET_DELAY with a delay that is not positive, read as a signed 16-bit number, raises `UndefinedDelay` in every
state (R193). Rests on log entry 20. -/
def Obligations.NonPositiveDelayFaults : Prop :=
  ∀ (f : Fields) (s : State), f.wLength = 0 →
    (f.wValue = 0 ∨ 0x8000 ≤ f.wValue.toNat) → exec (.setDelay f) s = .fault (.undefinedDelay f.wValue)

/-- SET_DELAY with a data stage raises `HostProtocolViolation`, whatever its delay; the reply of the other commands
does not depend on `wLength` (R209). Rests on log entries 20, 22. -/
def Obligations.DelayLengthFaultsReplyLengthIgnored : Prop :=
  (∀ (f : Fields) (s : State), f.wLength ≠ 0 →
    exec (.setDelay f) s = .fault (.hostProtocolViolation ⟨encode (.setDelay f), s.dataStage⟩))
  ∧ (∀ (f : Fields) (n : Word16) (s : State), s.pt.remaining = 0 →
    exec (.echo { f with wLength := n }) s = exec (.echo f) s
    ∧ exec (.getCapabilities { f with wLength := n }) s = exec (.getCapabilities f) s
    ∧ exec (.getStatus { f with wLength := n }) s = exec (.getStatus f) s)

/-- SET_DELAY with a positive delay and no data stage, in every state, a transfer in flight or not: with no clock for
the delay it is left unanswered and nothing else changes; else it stops a bus that is held, discards the transfer,
writes the clock, makes both statuses `Idle` and acknowledges (R194, R195, R196). Rests on log entry 17. -/
def Obligations.SetDelayCompletes : Prop :=
  ∀ (f : Fields) (s : State), f.wLength = 0 → 0 < f.wValue.toInt → s.env.busLimit = none →
    exec (.setDelay f) s = .next (match computeClock f.wValue.toInt with
      | none => { s with trace := s.trace ++ [.unanswered ⟨encode (.setDelay f), s.dataStage⟩] }
      | some c => { s with
          ts := .idle
          is := .idle
          pt := ⟨.write, 0, false⟩
          cc := some c
          clockReg := c
          trace := s.trace ++ (if s.is = .unconfigured ∨ s.is = .idle then [] else [.busStop])
            ++ [.busSetClock c.tier c.bitLength, .usbStatusStage] })

/-- Applying a clock configuration, for every configuration and in every state (R194, R65). Rests on log entry 17. -/
def Obligations.AppliedClockReplacesAll : Prop :=
  ∀ (c : ClockConfig) (s : State), s.env.busLimit = none →
    applyClock c s = .next { s with
      ts := .idle
      is := .idle
      pt := ⟨.write, 0, false⟩
      cc := some c
      clockReg := c
      trace := s.trace ++ (if s.is = .unconfigured ∨ s.is = .idle then [] else [.busStop])
        ++ [.busSetClock c.tier c.bitLength, .usbStatusStage] }

/-- `computeClock` returns an accepted tier with its formula value, and no smaller tier is accepted (R122, R123,
R126). Rests on log entry 19. -/
def Obligations.ComputeClockPicksSmallestTier : Prop :=
  ∀ (formula : Tier → Int → Int) (delay : Int) (c : ClockConfig), computeClockWith formula delay = some c →
    (c.bitLength.toNat : Int) = formula c.tier (Int.tdiv 1000000 delay)
    ∧ ∀ t : Tier, t.value < c.tier.value →
        ¬ (0 ≤ formula t (Int.tdiv 1000000 delay) ∧ formula t (Int.tdiv 1000000 delay) ≤ 255)

/-- `computeClock` fails exactly when the formula value of every tier lies outside 0..255; the machine's own uses the
parameter `clockFormula` (R120, R123, R124). Rests on log entry 19. -/
def Obligations.InvalidDelayWhenEveryTierFails : Prop :=
  (∀ (formula : Tier → Int → Int) (delay : Int), computeClockWith formula delay = none ↔
    ∀ t : Tier, formula t (Int.tdiv 1000000 delay) < 0 ∨ 255 < formula t (Int.tdiv 1000000 delay))
  ∧ ∀ delay : Int, computeClock delay = computeClockWith Config.clockFormula delay

/-- The target frequency of a positive 16-bit delay is in 30..1000000, and truncates (R121). Rests on log entry 19. -/
def Obligations.TargetFrequencyBounds : Prop :=
  ∀ delay : Int, 1 ≤ delay → delay ≤ 32767 →
    30 ≤ targetFrequency delay ∧ targetFrequency delay ≤ 1000000
    ∧ targetFrequency delay * delay ≤ 1000000 ∧ 1000000 < (targetFrequency delay + 1) * delay

/-! ## PERFORM_IO -/

/-- Before the bus is configured, an admitted PERFORM_IO of any form gets no reply and no bus access (R199, R263). -/
def Obligations.UnconfiguredIoIsUnanswered : Prop :=
  ∀ (b e : Bool) (f : Fields) (s : State), s.ts = .unconfigured → s.pt.remaining = 0 → directionAgrees f s →
    exec (.performIoOf b e f) s = .next { s with
      trace := s.trace ++ [.unanswered ⟨encode (.performIoOf b e f), s.dataStage⟩] }

/-- A configured PERFORM_IO whose address is acknowledged, with either BEGIN and either END: a zero length completes
at once, stopping the bus only with END; any other length arms the pump, and END defers the stop (R199, R200, R202).
Rests on log entries 9, 15. -/
def Obligations.AcknowledgedIoArmsOrCompletes : Prop :=
  ∀ (b e : Bool) (f : Fields) (s : State), s.ts ≠ .unconfigured → s.pt.remaining = 0 → directionAgrees f s →
    s.env.busLimit = none → (takeStart s).1 = .ack →
    exec (.performIoOf b e f) s = .next (
      if f.wLength = 0 then { s with
        ts := .addressAcked
        is := if e then .idle else .running
        trace := s.trace ++ [.busStart (f.wIndex.extractLsb' 0 7 ++ f.wValue.extractLsb' 0 1) Config.startTimeout .ack]
          ++ (if e then [.busStop] else []) ++ [.usbStatusStage]
        env := (takeStart s).2.env }
      else { s with
        ts := .addressAcked
        is := .running
        pt := ⟨if f.wValue.getLsbD 0 then .read else .write, f.wLength.toNat, e⟩
        trace := s.trace ++ [.busStart (f.wIndex.extractLsb' 0 7 ++ f.wValue.extractLsb' 0 1) Config.startTimeout .ack]
        env := (takeStart s).2.env })

/-- A configured PERFORM_IO whose address gets no acknowledge, with either BEGIN and either END: one stop, status
`AddressNaked`, and still an armed transfer or an acknowledge (R142, R199, R200, R204). Rests on log entries 9, 15. -/
def Obligations.NakedIoStopsOnceAndStillArms : Prop :=
  ∀ (b e : Bool) (f : Fields) (s : State), s.ts ≠ .unconfigured → s.pt.remaining = 0 → directionAgrees f s →
    s.env.busLimit = none → (takeStart s).1 = .nak →
    exec (.performIoOf b e f) s = .next { s with
      ts := .addressNaked
      is := .idle
      pt := if f.wLength = 0 then s.pt
        else ⟨if f.wValue.getLsbD 0 then .read else .write, f.wLength.toNat, e⟩
      trace := s.trace ++ [.busStart (f.wIndex.extractLsb' 0 7 ++ f.wValue.extractLsb' 0 1) Config.startTimeout .nak,
        .busStop] ++ (if f.wLength = 0 then [.usbStatusStage] else [])
      env := (takeStart s).2.env }

/-- While a transfer is in flight, a PERFORM_IO raises `OverlappingTransfer`, and any other request but SET_DELAY
raises `HostProtocolViolation`, an unknown opcode too; a SET_DELAY is admitted (R206). Rests on log entry 20. -/
def Obligations.RequestDuringTransferFaults : Prop :=
  ∀ s : State, 0 < s.pt.remaining →
    (∀ (b e : Bool) (f : Fields), exec (.performIoOf b e f) s
      = .fault (.overlappingTransfer ⟨encode (.performIoOf b e f), s.dataStage⟩))
    ∧ (∀ f : Fields, exec (.echo f) s = .fault (.hostProtocolViolation ⟨encode (.echo f), s.dataStage⟩))
    ∧ (∀ f : Fields, exec (.getCapabilities f) s
      = .fault (.hostProtocolViolation ⟨encode (.getCapabilities f), s.dataStage⟩))
    ∧ (∀ f : Fields, exec (.getStatus f) s
      = .fault (.hostProtocolViolation ⟨encode (.getStatus f), s.dataStage⟩))
    ∧ (∀ req : Request, 8 ≤ req.packet.bRequest.toNat → dispatch req s = .fault (.hostProtocolViolation req))
    ∧ (∀ f : Fields, f.wLength = 0 → admission ⟨encode (.setDelay f), s.dataStage⟩ s = none)

/-- A PERFORM_IO with bytes to move whose data stage runs against `wValue[0]` raises `HostProtocolViolation`, in
every status (R208). Rests on log entries 4, 20. -/
def Obligations.WrongDirectionFaults : Prop :=
  ∀ (b e : Bool) (f : Fields) (s : State), s.pt.remaining = 0 → f.wLength ≠ 0 →
    s.dataStage ≠ (if f.wValue.getLsbD 0 then .read else .write) →
    exec (.performIoOf b e f) s = .fault (.hostProtocolViolation ⟨encode (.performIoOf b e f), s.dataStage⟩)

/-- Two commands that differ only in what the block does not read (the request type, the fields their command does
not use, the BEGIN flag) do the same in every state, but for the record of which request it was (R99, R102, R201).
Rests on log entries 15, 22. -/
def Obligations.UnreadFieldsChangeNothing : Prop :=
  ∀ (i j : Instr) (s : State), sameUsed i j → eraseOutcome (exec i s) = eraseOutcome (exec j s)

/-- Each of the eight commands moves to exactly the outcome the table of R207 gives; the table's row for an unknown
opcode is `UnknownOpcodeIsUnanswered`. Rests on log entries 9, 20. -/
def Obligations.RequestMovesToItsOutcome : Prop :=
  ∀ (i : Instr) (s : State), s.env.busLimit = none → showsOutcome i s (exec i s) (controlOutcome i s)

/-- Every well-formed command completes in every state in which the host keeps its contract and the bus driver returns:
each of the eight constructors, with every value of its fields (R99, R190, R239). -/
def Obligations.EveryCommandCompletes : Prop :=
  ∀ (i : Instr) (s : State), i.wellFormed = true → hostKeepsContract i s → s.env.busLimit = none →
    ∃ t, exec i s = .next t

/-- An ill-formed command faults in every state (R193, R209, R267). Rests on log entries 16, 20. -/
def Obligations.IllFormedCommandFaults : Prop :=
  ∀ (i : Instr) (s : State), i.wellFormed = false → ∃ r, exec i s = .fault r

/-! ## The Bus Transaction Controller -/

/-- Two stops in a row issue one physical stop, or none when the bus is idle already; for every starting status
(R143, R145). -/
def Obligations.StopTwiceStopsOnce : Prop :=
  ∀ s : State, s.env.busLimit = none →
    stop s = .next (if s.is = .idle then s else { s with is := .idle, trace := s.trace ++ [.busStop] })
    ∧ andThen (stop s) stop = stop s

/-- A start that gets no acknowledge sets `TS` to `AddressNaked`, issues exactly one stop and leaves `IS` idle, so that a
further stop issues nothing; one that gets it sets `Running` and `AddressAcked` from every status
(R141, R142). Rests on log entry 15. -/
def Obligations.StartTracksAcknowledge : Prop :=
  ∀ (addr : Byte) (s : State), s.env.busLimit = none →
    ((takeStart s).1 = .ack → start addr s = .next (true, { s with
        ts := .addressAcked
        is := .running
        trace := s.trace ++ [.busStart addr Config.startTimeout .ack]
        env := (takeStart s).2.env }))
    ∧ ((takeStart s).1 = .nak → ∃ t, start addr s = .next (false, t) ∧ stop t = .next t ∧ t = { s with
        ts := .addressNaked
        is := .idle
        trace := s.trace ++ [.busStart addr Config.startTimeout .nak, .busStop]
        env := (takeStart s).2.env })

/-- `reset()` stops a bus that is neither unconfigured nor idle, and always empties the pending transfer, with no
event for it; the status is untouched (R144). Rests on log entry 17. -/
def Obligations.BusResetDiscardsTransfer : Prop :=
  ∀ s : State, s.env.busLimit = none →
    busReset s = .next { s with
      is := if s.is = .unconfigured then .unconfigured else .idle
      pt := ⟨.write, 0, false⟩
      trace := s.trace ++ (if s.is = .unconfigured ∨ s.is = .idle then [] else [.busStop]) }

/-! ## The pump -/

/-- A pass with no transfer in flight, or with a transport that is not ready, moves nothing and signals nothing; only
the readiness query is recorded (R160, R161). Rests on log entries 6, 18. -/
def Obligations.IdlePassDoesNothing : Prop :=
  ∀ (o : Offer) (s : State),
    (s.pt.remaining = 0 → pump o s = .next s)
    ∧ (0 < s.pt.remaining → s.pt.dir = .read → o.inSpace = 0 →
        pump o s = .next { s with trace := s.trace ++ [.usbInReady false] })
    ∧ (0 < s.pt.remaining → s.pt.dir = .write → o.outChunk = [] →
        pump o s = .next { s with trace := s.trace ++ [.usbOutReady false] })

/-- Every pass completes when the bus driver returns, whatever the bus answers and whatever the transport offers (R160,
R171). -/
def Obligations.EveryPassCompletes : Prop :=
  ∀ (o : Offer) (s : State), s.env.busLimit = none → ∃ t, pump o s = .next t

/-- A read pass puts as many bytes as remain and fit, in order: what the bus supplied, then the filler 0xFF. It asks the
bus for none unless `IS` is `Running`, and for all of them when none fails (R62, R162, R164, R165). -/
def Obligations.ReadPassPutsBytesInOrder : Prop :=
  ∀ (o : Offer) (s t : State), s.pt.dir = .read → 0 < s.pt.remaining → 0 < o.inSpace → pump o s = .next t →
    ∃ es, t.trace = s.trace ++ es
      ∧ (putBytes es).length = min s.pt.remaining o.inSpace
      ∧ putBytes es = (receivedBytes es).map (fun r => deliveredByte r.2)
          ++ List.replicate (min s.pt.remaining o.inSpace - (receivedBytes es).length) 0xFF
      ∧ (s.is ≠ .running → receivedBytes es = [])
      ∧ (s.is = .running → (∀ r ∈ receivedBytes es, r.2 ≠ .fail) →
          (receivedBytes es).length = min s.pt.remaining o.inSpace)
      ∧ takenBytes es = [] ∧ sentBytes es = []

/-- A write pass takes as many bytes as remain and are offered, in order, and sends a prefix of them: none unless `IS` is
`Running`, and all of them when none fails (R62, R166, R167, R168, R169). -/
def Obligations.WritePassTakesBytesInOrder : Prop :=
  ∀ (o : Offer) (s t : State), s.pt.dir = .write → 0 < s.pt.remaining → o.outChunk ≠ [] → pump o s = .next t →
    ∃ es, t.trace = s.trace ++ es
      ∧ takenBytes es = o.outChunk.take s.pt.remaining
      ∧ (sentBytes es).map Prod.fst = (takenBytes es).take (sentBytes es).length
      ∧ (s.is ≠ .running → sentBytes es = [])
      ∧ (s.is = .running → (∀ r ∈ sentBytes es, r.2 ≠ .fail) → (sentBytes es).length = (takenBytes es).length)
      ∧ putBytes es = [] ∧ receivedBytes es = []

/-- The last-byte tag is set on the read of the byte that ends the transfer and on no other, whatever the END flag
(R163). -/
def Obligations.LastByteTagOnFinalByteOnly : Prop :=
  ∀ (o : Offer) (s t : State), pump o s = .next t →
    ∃ es, t.trace = s.trace ++ es
      ∧ ∀ (k : Nat) (last : Bool) (a : RecvAnswer), (receivedBytes es)[k]? = some (last, a) →
          (last = true ↔ k + 1 = s.pt.remaining)

/-- In a pass, no bus access follows the first that fails, and none is made unless `IS` is `Running` (R164, R168,
R172). -/
def Obligations.NoBusAccessAfterFailure : Prop :=
  ∀ (o : Offer) (s t : State), pump o s = .next t →
    ∃ es, t.trace = s.trace ++ es
      ∧ (∀ (k : Nat) (last : Bool), (receivedBytes es)[k]? = some (last, .fail) → k + 1 = (receivedBytes es).length)
      ∧ (∀ (k : Nat) (b : Byte), (sentBytes es)[k]? = some (b, .fail) → k + 1 = (sentBytes es).length)
      ∧ (s.is ≠ .running → receivedBytes es = [] ∧ sentBytes es = [])

/-- The answers a pass gets are the script's next ones, in order, while the script lasts (R11, D18). Rests on log
entry 3. -/
def Obligations.PassAnswersComeFromScript : Prop :=
  ∀ (o : Offer) (s t : State), pump o s = .next t →
    ∃ es, t.trace = s.trace ++ es
      ∧ (s.pt.dir = .read → min s.pt.remaining o.inSpace ≤ s.env.recvs.length →
          s.env.recvs.take (receivedBytes es).length = (receivedBytes es).map Prod.snd)
      ∧ (s.pt.dir = .write → min s.pt.remaining o.outChunk.length ≤ s.env.sends.length →
          s.env.sends.take (sentBytes es).length = (sentBytes es).map Prod.snd)

/-- What a read pass leaves in the block's state: the count, a latched `ReadFailed`, and at the transfer's end the
completion of R170; `CC` and the clock register are untouched (R162, R164, R169, R170). -/
def Obligations.ReadPassLeavesState : Prop :=
  ∀ (o : Offer) (s t : State), s.pt.dir = .read → 0 < s.pt.remaining → 0 < o.inSpace → pump o s = .next t →
    ∃ (es : List Event) (latched : InternalStatus), t.trace = s.trace ++ es
      ∧ ((∃ r ∈ receivedBytes es, r.2 = .fail) → latched = .readFailed)
      ∧ ((∀ r ∈ receivedBytes es, r.2 ≠ .fail) → latched = s.is)
      ∧ t.cc = s.cc ∧ t.clockReg = s.clockReg ∧ t.dataStage = s.dataStage ∧ t.env.turns = s.env.turns
      ∧ (o.inSpace < s.pt.remaining →
          t.ts = s.ts ∧ t.is = latched ∧ t.pt = ⟨.read, s.pt.remaining - o.inSpace, s.pt.deferStop⟩)
      ∧ (s.pt.remaining ≤ o.inSpace →
          t.ts = (if latched = .readFailed ∨ latched = .writeFailed then .addressNaked else s.ts)
          ∧ t.is = (if s.pt.deferStop then .idle else latched) ∧ t.pt = ⟨.write, 0, false⟩)

/-- What a write pass leaves in the block's state: the count, a latched `WriteFailed`, and at the transfer's end the
completion of R170; `CC` and the clock register are untouched (R166, R168, R169, R170). -/
def Obligations.WritePassLeavesState : Prop :=
  ∀ (o : Offer) (s t : State), s.pt.dir = .write → 0 < s.pt.remaining → o.outChunk ≠ [] → pump o s = .next t →
    ∃ (es : List Event) (latched : InternalStatus), t.trace = s.trace ++ es
      ∧ ((∃ r ∈ sentBytes es, r.2 = .fail) → latched = .writeFailed)
      ∧ ((∀ r ∈ sentBytes es, r.2 ≠ .fail) → latched = s.is)
      ∧ t.cc = s.cc ∧ t.clockReg = s.clockReg ∧ t.dataStage = s.dataStage ∧ t.env.turns = s.env.turns
      ∧ (o.outChunk.length < s.pt.remaining →
          t.ts = s.ts ∧ t.is = latched ∧ t.pt = ⟨.write, s.pt.remaining - o.outChunk.length, s.pt.deferStop⟩)
      ∧ (s.pt.remaining ≤ o.outChunk.length →
          t.ts = (if latched = .readFailed ∨ latched = .writeFailed then .addressNaked else s.ts)
          ∧ t.is = (if s.pt.deferStop then .idle else latched) ∧ t.pt = ⟨.write, 0, false⟩)

/-- `complete()`: a latched failure becomes `AddressNaked`, a deferred stop is issued now, a write transfer gets its
status stage, and the transfer is empty (R170). -/
def Obligations.CompletionEndsTransfer : Prop :=
  ∀ s : State, s.env.busLimit = none →
    complete s = .next { s with
      ts := if s.is = .readFailed ∨ s.is = .writeFailed then .addressNaked else s.ts
      is := if s.pt.deferStop then .idle else s.is
      pt := ⟨.write, 0, false⟩
      trace := s.trace ++ (if s.pt.deferStop = true ∧ s.is ≠ .idle then [.busStop] else [])
        ++ (if s.pt.dir = .write then [.usbStatusStage] else []) }

/-- A pass that moves bytes signals exactly one completed chunk, after its bytes and before the completion actions,
which follow only when no byte remains (R169). Rests on log entry 18. -/
def Obligations.ChunkCompleteOncePerMovingPass : Prop :=
  ∀ (o : Offer) (s t : State), 0 < s.pt.remaining →
    (s.pt.dir = .read ∧ 0 < o.inSpace ∨ s.pt.dir = .write ∧ o.outChunk ≠ []) → pump o s = .next t →
    ∃ moved ending, t.trace = s.trace ++ moved ++ [.usbChunkComplete] ++ ending
      ∧ .usbChunkComplete ∉ moved ∧ .busStop ∉ moved ∧ .usbStatusStage ∉ moved
      ∧ (∀ e ∈ ending, e = .busStop ∨ e = .usbStatusStage)
      ∧ (0 < t.pt.remaining → ending = [])

/-- In every state and for every script, a step puts at most `chunkSize` bytes to the host and takes at most `chunkSize`
from it, and what is left of the script is its tail (R8, R10, R64, R160, R174). Rests on log entry 11. -/
def Obligations.StepMovesAtMostOneChunk : Prop :=
  ∀ s t : State, step s = .next t →
    t.env.turns = s.env.turns.tail ∧ (legalScript s → legalScript t)
    ∧ ∃ es, t.trace = s.trace ++ es
      ∧ (putBytes es).length ≤ Config.chunkSize ∧ (takenBytes es).length ≤ Config.chunkSize

/-- A read transfer of `n` bytes, over any passes whose offers, each at most a chunk, reach `n` bytes in all, puts exactly
`n` bytes and then is empty, whatever the bus answers; it gets no status stage from the block (R171). -/
def Obligations.ReadTransferMovesExactlyItsLength : Prop :=
  ∀ (s : State) (os : List Offer) (rest : List Turn), s.pt.dir = .read → 0 < s.pt.remaining →
    s.env.turns = os.map Turn.pass ++ rest → s.env.busLimit = none → s.pt.remaining ≤ totalSpace os →
    ∃ t es, runsTo os.length s t ∧ t.trace = s.trace ++ es
      ∧ (putBytes es).length = s.pt.remaining ∧ t.pt.remaining = 0 ∧ t.env.turns = rest
      ∧ .usbStatusStage ∉ es

/-- A write transfer of `n` bytes, over any passes whose offers, each at most a chunk, reach `n` bytes in all, takes the
first `n` of them in order and then is empty, whatever the bus answers, with exactly one status stage (R171). -/
def Obligations.WriteTransferMovesExactlyItsLength : Prop :=
  ∀ (s : State) (os : List Offer) (rest : List Turn), s.pt.dir = .write → 0 < s.pt.remaining →
    s.env.turns = os.map Turn.pass ++ rest → s.env.busLimit = none → s.pt.remaining ≤ (totalBytes os).length →
    ∃ t es, runsTo os.length s t ∧ t.trace = s.trace ++ es
      ∧ takenBytes es = (totalBytes os).take s.pt.remaining ∧ t.pt.remaining = 0 ∧ t.env.turns = rest
      ∧ es.count .usbStatusStage = 1

/-- A register pointer write without END and then a read with END over any passes that reach its length, every byte
acknowledged: on the bus START, the write address, the pointer, a START with no STOP between, the read address, the
bytes with the tag on the last, STOP; the host gets the bytes (R203). Rests on log entries 3, 9, 11, 15. -/
def Obligations.RepeatedStartSequence : Prop :=
  ∀ (s : State) (b1 b2 : Bool) (a : Word16) (p : Byte) (bs : List Byte) (o : Offer) (os : List Offer)
    (starts : List StartAnswer) (sends : List SendAnswer) (recvs : List RecvAnswer) (rest : List Turn),
    s.ts ≠ .unconfigured → s.is = .idle → s.pt.remaining = 0 → s.env.busLimit = none →
    bs ≠ [] → bs.length ≤ 65535 → o.outChunk = [p] → bs.length ≤ totalSpace os →
    s.env.turns = .request (requestWrite b1 false a 1) :: .pass o
      :: .request (requestRead b2 true a (BitVec.ofNat 16 bs.length)) :: (os.map Turn.pass ++ rest) →
    s.env.starts = .ack :: .ack :: starts → s.env.sends = .ok :: sends → s.env.recvs = bs.map .ok ++ recvs →
    ∃ t es, runsTo (3 + os.length) s t ∧ t.trace = s.trace ++ es
      ∧ es.filter isBusEvent = [.busStart (a.extractLsb' 0 7 ++ 0#1) Config.startTimeout .ack, .busSend p .ok,
          .busStart (a.extractLsb' 0 7 ++ 1#1) Config.startTimeout .ack] ++ taggedReads bs ++ [.busStop]
      ∧ putBytes es = bs ∧ t.ts = .addressAcked ∧ t.is = .idle ∧ t.pt.remaining = 0

/-! ## The whole machine -/

/-- The state right after power-on, in the elements whose value R260 gives. Rests on log entry 14 for the idle bus. -/
def Obligations.PowerOnState : Prop :=
  State.reset.ts = .unconfigured ∧ statusCode State.reset.ts = 0xFF ∧ State.reset.is = .unconfigured
    ∧ State.reset.pt = ⟨.write, 0, false⟩ ∧ State.reset.cc = none ∧ busHeld State.reset = false
    ∧ State.reset.trace = []

/-- The power-on state meets the invariant (R23, R25, R33, R35). -/
def Obligations.PowerOnMeetsInvariant : Prop := StateInv State.reset

/-- Every step keeps the invariant: `IS` is never `AddressNaked` between steps, the statuses and the clock leave
`Unconfigured` together, the transfer is in range and empty in one form, the clock register holds the configuration,
and the bus is held by `IS` exactly when the trace shows it open (R23, R25, R28, R33, R35, R146, R204). Rests on log
entry 15. -/
def Obligations.StepKeepsInvariant : Prop :=
  ∀ s t : State, StateInv s → step s = .next t → StateInv t

/-- Only a SET_DELAY whose delay gives a clock leads out of `Unconfigured`, and it leads to `Idle` in both statuses with
that clock; after any other step the block is still unconfigured, with no clock and no transfer (R261, R35). -/
def Obligations.OnlySetDelayConfigures : Prop :=
  ∀ s t : State, StateInv s → s.ts = .unconfigured → step s = .next t →
    (t.ts = .unconfigured ∧ t.is = .unconfigured ∧ t.cc = none ∧ t.pt.remaining = 0)
    ∨ ∃ req c, (takeTurn s).1 = .request req ∧ req.packet.bRequest = 0x02
        ∧ computeClock req.packet.wValue.toInt = some c ∧ t.ts = .idle ∧ t.is = .idle ∧ t.cc = some c

/-- Before configuration no step issues a bus primitive but the clock write of the SET_DELAY that configures (R263). -/
def Obligations.NoBusAccessBeforeConfiguration : Prop :=
  ∀ s t : State, StateInv s → s.ts = .unconfigured → step s = .next t →
    ∃ es, t.trace = s.trace ++ es
      ∧ ∀ e ∈ es, isBusEvent e = true → t.ts = .idle ∧ ∃ tier b, e = .busSetClock tier b

/-- A step leaves `CC` and the clock-divider register as they are, or it handles a SET_DELAY and both take the clock
computed for its delay (R27, R28, R65). -/
def Obligations.ClockChangesOnlyBySetDelay : Prop :=
  ∀ s t : State, step s = .next t →
    (t.cc = s.cc ∧ t.clockReg = s.clockReg)
    ∨ ∃ req c, (takeTurn s).1 = .request req ∧ req.packet.bRequest = 0x02
        ∧ computeClock req.packet.wValue.toInt = some c ∧ t.cc = some c ∧ t.clockReg = c

/-- `TS` changes only by the three operations of R22: a SET_DELAY to `Idle`, a PERFORM_IO to `AddressAcked` or
`AddressNaked`, and the completion of a transfer to `AddressNaked`. -/
def Obligations.StatusHasThreeWriters : Prop :=
  ∀ s t : State, step s = .next t →
    t.ts = s.ts
    ∨ (∃ req, (takeTurn s).1 = .request req ∧ req.packet.bRequest = 0x02 ∧ t.ts = .idle)
    ∨ (∃ req, (takeTurn s).1 = .request req ∧ 4 ≤ req.packet.bRequest.toNat ∧ req.packet.bRequest.toNat ≤ 7
        ∧ (t.ts = .addressAcked ∨ t.ts = .addressNaked))
    ∨ (∃ o, (takeTurn s).1 = .pass o ∧ 0 < s.pt.remaining ∧ t.pt.remaining = 0 ∧ t.ts = .addressNaked)

/-- Nothing a step records is undone: the trace only grows (R72, R148). -/
def Obligations.TraceOnlyGrows : Prop :=
  ∀ s t : State, step s = .next t → ∃ es, t.trace = s.trace ++ es

/-- A step is never refused, and it faults only for the causes of R232, each with the request it names, or because a
bus primitive never returns (R147, R190, R233). Rests on log entries 7, 20. -/
def Obligations.StepStopsOnlyForItsCauses : Prop :=
  ∀ s : State, (∀ r : Refusal, step s ≠ .refused r) ∧ ∀ r : Fault, step s = .fault r →
    match r with
    | .undefinedDelay v => ∃ req, (takeTurn s).1 = .request req ∧ req.packet.bRequest = 0x02
        ∧ req.packet.wValue = v ∧ v.toInt ≤ 0
    | .overlappingTransfer req => (takeTurn s).1 = .request req ∧ 0 < s.pt.remaining
        ∧ 4 ≤ req.packet.bRequest.toNat ∧ req.packet.bRequest.toNat ≤ 7
    | .hostProtocolViolation req => (takeTurn s).1 = .request req
        ∧ ((0 < s.pt.remaining ∧ req.packet.bRequest ≠ 0x02
              ∧ ¬ (4 ≤ req.packet.bRequest.toNat ∧ req.packet.bRequest.toNat ≤ 7))
          ∨ (s.pt.remaining = 0 ∧ 4 ≤ req.packet.bRequest.toNat ∧ req.packet.bRequest.toNat ≤ 7
              ∧ req.packet.wLength ≠ 0 ∧ req.dataStage ≠ dirOf req.packet)
          ∨ (req.packet.bRequest = 0x02 ∧ req.packet.wLength ≠ 0))
    | .busNeverReturns _ => s.env.busLimit ≠ none

/-- When the bus driver returns from no further call, a step that makes one stays unfinished: a PERFORM_IO at its START,
a clock change at the stop of a held bus or else at the register write, a pass at its first byte (R147, R233; the
bound on calls is the model's, log entry 7). -/
def Obligations.UnreturnedBusCallSticks : Prop :=
  ∀ s : State, s.env.busLimit = some 0 →
    (∀ (b e : Bool) (f : Fields), s.ts ≠ .unconfigured → s.pt.remaining = 0 → directionAgrees f s →
      exec (.performIoOf b e f) s = .fault (.busNeverReturns .start))
    ∧ (∀ c : ClockConfig, applyClock c s = .fault (.busNeverReturns
        (if s.is = .unconfigured ∨ s.is = .idle then .setClock else .stop)))
    ∧ (∀ o : Offer, s.is = .running → 0 < s.pt.remaining → s.pt.dir = .read → 0 < o.inSpace →
      pump o s = .fault (.busNeverReturns .recv))
    ∧ (∀ o : Offer, s.is = .running → 0 < s.pt.remaining → s.pt.dir = .write → o.outChunk ≠ [] →
      pump o s = .fault (.busNeverReturns .send))
end

