-- ==== Sys2Proof/Laws/Clock.lean ====
section
/-! SUPPORT. What the tier search of the Clock Configurator finds. -/

namespace Sys2Proof.Machine

theorem acceptsDivider_iff (b : Int) : acceptsDivider b = true ↔ 0 ≤ b ∧ b ≤ 255 := by
  simp [acceptsDivider]

theorem acceptsDivider_eq_false (b : Int) : acceptsDivider b = false ↔ b < 0 ∨ 255 < b := by
  rw [Bool.eq_false_iff, ne_eq, acceptsDivider_iff]
  omega

/-- The tier found is accepted with its own formula value, and every tier before it is rejected. -/
theorem firstTier_some {formula : Tier → Int → Int} {f : Int} {tiers : List Tier} {c : ClockConfig}
    (h : firstTier formula f tiers = some c) :
    ∃ before after, tiers = before ++ c.tier :: after ∧ (∀ t ∈ before, acceptsDivider (formula t f) = false)
      ∧ acceptsDivider (formula c.tier f) = true ∧ c.bitLength = BitVec.ofInt 8 (formula c.tier f) := by
  induction tiers with
  | nil => cases h
  | cons t tiers ih =>
    unfold firstTier at h
    split at h <;> rename_i ha
    · cases h; exact ⟨[], tiers, rfl, by simp, ha, rfl⟩
    · obtain ⟨before, after, rfl, h1, h2⟩ := ih h
      exact ⟨t :: before, after, rfl, by simpa [ha] using h1, h2⟩

/-- No tier is found exactly when every one is rejected. -/
theorem firstTier_none {formula : Tier → Int → Int} {f : Int} {tiers : List Tier} :
    firstTier formula f tiers = none ↔ ∀ t ∈ tiers, acceptsDivider (formula t f) = false := by
  induction tiers with
  | nil => simp [firstTier]
  | cons t tiers ih =>
    unfold firstTier
    split <;> simp_all

end Sys2Proof.Machine
end

