-- ==== Sys2Proof/Laws/Decode.lean ====
section
/-! SUPPORT. Small facts of the byte order and of the fields of an encoded command. -/

namespace Sys2Proof

@[simp] theorem word16_of_bytes (w : Word16) : word16 (loByte w) (hiByte w) = w := by
  apply BitVec.eq_of_getLsbD_eq
  intro i hi
  simp only [word16, loByte, hiByte, BitVec.getLsbD_append, BitVec.getLsbD_extractLsb', Nat.zero_add]
  by_cases h : i < 8
  · simp [h]
  · have h2 : i - 8 < 8 := by omega
    have h3 : 8 + (i - 8) = i := by omega
    simp [h, h2, h3]

@[simp] theorem loByte_word16 (lo hi : Byte) : loByte (word16 lo hi) = lo := by
  apply BitVec.eq_of_getLsbD_eq
  intro i h
  simp only [word16, loByte, BitVec.getLsbD_extractLsb', BitVec.getLsbD_append, Nat.zero_add, h, decide_true,
    Bool.true_and, if_true]

@[simp] theorem hiByte_word16 (lo hi : Byte) : hiByte (word16 lo hi) = hi := by
  apply BitVec.eq_of_getLsbD_eq
  intro i h
  have h8 : ¬ 8 + i < 8 := by omega
  simp only [word16, hiByte, BitVec.getLsbD_extractLsb', BitVec.getLsbD_append, h8, h, decide_true, Bool.true_and,
    if_false, Nat.add_sub_cancel_left]

@[simp] theorem packetOf_bRequest (op : Byte) (f : Fields) : (packetOf op f).bRequest = op := rfl

@[simp] theorem packetOf_wValue (op : Byte) (f : Fields) : (packetOf op f).wValue = f.wValue :=
  word16_of_bytes f.wValue

@[simp] theorem packetOf_wIndex (op : Byte) (f : Fields) : (packetOf op f).wIndex = f.wIndex :=
  word16_of_bytes f.wIndex

@[simp] theorem packetOf_wLength (op : Byte) (f : Fields) : (packetOf op f).wLength = f.wLength :=
  word16_of_bytes f.wLength

@[simp] theorem packetOf_fields (op : Byte) (f : Fields) : (packetOf op f).fields = f := by
  simp only [Packet.fields, packetOf_wValue, packetOf_wIndex, packetOf_wLength]
  rfl

@[simp] theorem encode_wValue (i : Instr) : (encode i).wValue = i.fields.wValue :=
  packetOf_wValue i.opcode i.fields

@[simp] theorem encode_wIndex (i : Instr) : (encode i).wIndex = i.fields.wIndex :=
  packetOf_wIndex i.opcode i.fields

@[simp] theorem encode_wLength (i : Instr) : (encode i).wLength = i.fields.wLength :=
  packetOf_wLength i.opcode i.fields

@[simp] theorem encode_bRequest (i : Instr) : (encode i).bRequest = i.opcode := rfl

/-- What decoding answers, said once: a command of the table's opcode with the packet's fields, or the refusal of an
opcode that is no command. -/
theorem decode_cases (p : Packet) :
    (∃ i, decode p = .ok i ∧ i.opcode = p.bRequest ∧ i.fields = p.fields)
      ∨ (decode p = .error (.unknownOpcode p.bRequest) ∧ 8 ≤ p.bRequest.toNat) := by
  have opcodeOf : ∀ n : Nat, p.bRequest.toNat = n → BitVec.ofNat 8 n = p.bRequest := by
    intro n h
    rw [← h, BitVec.ofNat_toNat, BitVec.setWidth_eq]
  unfold decode
  split <;> rename_i h
  case h_9 =>
    refine .inr ⟨rfl, ?_⟩
    rename_i h0 h1 h2 h3 h4 h5 h6
    simp only [imp_false] at *
    omega
  all_goals exact .inl ⟨_, rfl, opcodeOf _ h, rfl⟩

end Sys2Proof
end

