-- ==== Sys2Proof/Laws/State.lean ====
section
/-! SUPPORT. One lemma per field per update of the state, each true by unfolding the update once. -/

namespace Sys2Proof.Machine

/-! ## `record` changes `trace` and nothing else -/

@[simp] theorem record_ts (e : Event) (s : State) : (s.record e).ts = s.ts := rfl
@[simp] theorem record_is (e : Event) (s : State) : (s.record e).is = s.is := rfl
@[simp] theorem record_pt (e : Event) (s : State) : (s.record e).pt = s.pt := rfl
@[simp] theorem record_cc (e : Event) (s : State) : (s.record e).cc = s.cc := rfl
@[simp] theorem record_clockReg (e : Event) (s : State) : (s.record e).clockReg = s.clockReg := rfl
@[simp] theorem record_dataStage (e : Event) (s : State) : (s.record e).dataStage = s.dataStage := rfl
@[simp] theorem record_trace (e : Event) (s : State) : (s.record e).trace = s.trace ++ [e] := rfl
@[simp] theorem record_env (e : Event) (s : State) : (s.record e).env = s.env := rfl

/-! ## `writeTs` changes `ts` and nothing else -/

@[simp] theorem writeTs_ts (v : TransactionStatus) (s : State) : (s.writeTs v).ts = v := rfl
@[simp] theorem writeTs_is (v : TransactionStatus) (s : State) : (s.writeTs v).is = s.is := rfl
@[simp] theorem writeTs_pt (v : TransactionStatus) (s : State) : (s.writeTs v).pt = s.pt := rfl
@[simp] theorem writeTs_cc (v : TransactionStatus) (s : State) : (s.writeTs v).cc = s.cc := rfl
@[simp] theorem writeTs_clockReg (v : TransactionStatus) (s : State) : (s.writeTs v).clockReg = s.clockReg := rfl
@[simp] theorem writeTs_dataStage (v : TransactionStatus) (s : State) : (s.writeTs v).dataStage = s.dataStage := rfl
@[simp] theorem writeTs_trace (v : TransactionStatus) (s : State) : (s.writeTs v).trace = s.trace := rfl
@[simp] theorem writeTs_env (v : TransactionStatus) (s : State) : (s.writeTs v).env = s.env := rfl

/-! ## `writeIs` changes `is` and nothing else -/

@[simp] theorem writeIs_ts (v : InternalStatus) (s : State) : (s.writeIs v).ts = s.ts := rfl
@[simp] theorem writeIs_is (v : InternalStatus) (s : State) : (s.writeIs v).is = v := rfl
@[simp] theorem writeIs_pt (v : InternalStatus) (s : State) : (s.writeIs v).pt = s.pt := rfl
@[simp] theorem writeIs_cc (v : InternalStatus) (s : State) : (s.writeIs v).cc = s.cc := rfl
@[simp] theorem writeIs_clockReg (v : InternalStatus) (s : State) : (s.writeIs v).clockReg = s.clockReg := rfl
@[simp] theorem writeIs_dataStage (v : InternalStatus) (s : State) : (s.writeIs v).dataStage = s.dataStage := rfl
@[simp] theorem writeIs_trace (v : InternalStatus) (s : State) : (s.writeIs v).trace = s.trace := rfl
@[simp] theorem writeIs_env (v : InternalStatus) (s : State) : (s.writeIs v).env = s.env := rfl

/-! ## `writePt` changes `pt` and nothing else -/

@[simp] theorem writePt_ts (v : PendingTransfer) (s : State) : (s.writePt v).ts = s.ts := rfl
@[simp] theorem writePt_is (v : PendingTransfer) (s : State) : (s.writePt v).is = s.is := rfl
@[simp] theorem writePt_pt (v : PendingTransfer) (s : State) : (s.writePt v).pt = v := rfl
@[simp] theorem writePt_cc (v : PendingTransfer) (s : State) : (s.writePt v).cc = s.cc := rfl
@[simp] theorem writePt_clockReg (v : PendingTransfer) (s : State) : (s.writePt v).clockReg = s.clockReg := rfl
@[simp] theorem writePt_dataStage (v : PendingTransfer) (s : State) : (s.writePt v).dataStage = s.dataStage := rfl
@[simp] theorem writePt_trace (v : PendingTransfer) (s : State) : (s.writePt v).trace = s.trace := rfl
@[simp] theorem writePt_env (v : PendingTransfer) (s : State) : (s.writePt v).env = s.env := rfl

/-! ## `writeCc` changes `cc` and nothing else -/

@[simp] theorem writeCc_ts (c : ClockConfig) (s : State) : (s.writeCc c).ts = s.ts := rfl
@[simp] theorem writeCc_is (c : ClockConfig) (s : State) : (s.writeCc c).is = s.is := rfl
@[simp] theorem writeCc_pt (c : ClockConfig) (s : State) : (s.writeCc c).pt = s.pt := rfl
@[simp] theorem writeCc_cc (c : ClockConfig) (s : State) : (s.writeCc c).cc = some c := rfl
@[simp] theorem writeCc_clockReg (c : ClockConfig) (s : State) : (s.writeCc c).clockReg = s.clockReg := rfl
@[simp] theorem writeCc_dataStage (c : ClockConfig) (s : State) : (s.writeCc c).dataStage = s.dataStage := rfl
@[simp] theorem writeCc_trace (c : ClockConfig) (s : State) : (s.writeCc c).trace = s.trace := rfl
@[simp] theorem writeCc_env (c : ClockConfig) (s : State) : (s.writeCc c).env = s.env := rfl

/-! ## `writeClockReg` changes `clockReg` and nothing else -/

@[simp] theorem writeClockReg_ts (c : ClockConfig) (s : State) : (s.writeClockReg c).ts = s.ts := rfl
@[simp] theorem writeClockReg_is (c : ClockConfig) (s : State) : (s.writeClockReg c).is = s.is := rfl
@[simp] theorem writeClockReg_pt (c : ClockConfig) (s : State) : (s.writeClockReg c).pt = s.pt := rfl
@[simp] theorem writeClockReg_cc (c : ClockConfig) (s : State) : (s.writeClockReg c).cc = s.cc := rfl
@[simp] theorem writeClockReg_clockReg (c : ClockConfig) (s : State) : (s.writeClockReg c).clockReg = c := rfl
@[simp] theorem writeClockReg_dataStage (c : ClockConfig) (s : State) : (s.writeClockReg c).dataStage = s.dataStage := rfl
@[simp] theorem writeClockReg_trace (c : ClockConfig) (s : State) : (s.writeClockReg c).trace = s.trace := rfl
@[simp] theorem writeClockReg_env (c : ClockConfig) (s : State) : (s.writeClockReg c).env = s.env := rfl

/-! ## `writeDataStage` changes `dataStage` and nothing else -/

@[simp] theorem writeDataStage_ts (d : Dir) (s : State) : (s.writeDataStage d).ts = s.ts := rfl
@[simp] theorem writeDataStage_is (d : Dir) (s : State) : (s.writeDataStage d).is = s.is := rfl
@[simp] theorem writeDataStage_pt (d : Dir) (s : State) : (s.writeDataStage d).pt = s.pt := rfl
@[simp] theorem writeDataStage_cc (d : Dir) (s : State) : (s.writeDataStage d).cc = s.cc := rfl
@[simp] theorem writeDataStage_clockReg (d : Dir) (s : State) : (s.writeDataStage d).clockReg = s.clockReg := rfl
@[simp] theorem writeDataStage_dataStage (d : Dir) (s : State) : (s.writeDataStage d).dataStage = d := rfl
@[simp] theorem writeDataStage_trace (d : Dir) (s : State) : (s.writeDataStage d).trace = s.trace := rfl
@[simp] theorem writeDataStage_env (d : Dir) (s : State) : (s.writeDataStage d).env = s.env := rfl

/-! ## `writeEnv` changes `env` and nothing else -/

@[simp] theorem writeEnv_ts (v : Env) (s : State) : (s.writeEnv v).ts = s.ts := rfl
@[simp] theorem writeEnv_is (v : Env) (s : State) : (s.writeEnv v).is = s.is := rfl
@[simp] theorem writeEnv_pt (v : Env) (s : State) : (s.writeEnv v).pt = s.pt := rfl
@[simp] theorem writeEnv_cc (v : Env) (s : State) : (s.writeEnv v).cc = s.cc := rfl
@[simp] theorem writeEnv_clockReg (v : Env) (s : State) : (s.writeEnv v).clockReg = s.clockReg := rfl
@[simp] theorem writeEnv_dataStage (v : Env) (s : State) : (s.writeEnv v).dataStage = s.dataStage := rfl
@[simp] theorem writeEnv_trace (v : Env) (s : State) : (s.writeEnv v).trace = s.trace := rfl
@[simp] theorem writeEnv_env (v : Env) (s : State) : (s.writeEnv v).env = v := rfl

/-! ## `countDown` changes `pt.remaining` and nothing else -/

@[simp] theorem countDown_ts (s : State) : s.countDown.ts = s.ts := rfl
@[simp] theorem countDown_is (s : State) : s.countDown.is = s.is := rfl
@[simp] theorem countDown_dir (s : State) : s.countDown.pt.dir = s.pt.dir := rfl
@[simp] theorem countDown_remaining (s : State) :
    s.countDown.pt.remaining = s.pt.remaining - 1 := rfl
@[simp] theorem countDown_deferStop (s : State) :
    s.countDown.pt.deferStop = s.pt.deferStop := rfl
@[simp] theorem countDown_cc (s : State) : s.countDown.cc = s.cc := rfl
@[simp] theorem countDown_clockReg (s : State) : s.countDown.clockReg = s.clockReg := rfl
@[simp] theorem countDown_dataStage (s : State) : s.countDown.dataStage = s.dataStage := rfl
@[simp] theorem countDown_trace (s : State) : s.countDown.trace = s.trace := rfl
@[simp] theorem countDown_env (s : State) : s.countDown.env = s.env := rfl

/-! ## The empty transfer and the draw counter -/

@[simp] theorem empty_dir : PendingTransfer.empty.dir = .write := rfl
@[simp] theorem empty_remaining : PendingTransfer.empty.remaining = 0 := rfl
@[simp] theorem empty_deferStop : PendingTransfer.empty.deferStop = false := rfl
@[simp] theorem nextDraw_turns (v : Env) : v.nextDraw.turns = v.turns := rfl
@[simp] theorem nextDraw_starts (v : Env) : v.nextDraw.starts = v.starts := rfl
@[simp] theorem nextDraw_sends (v : Env) : v.nextDraw.sends = v.sends := rfl
@[simp] theorem nextDraw_recvs (v : Env) : v.nextDraw.recvs = v.recvs := rfl
@[simp] theorem nextDraw_draws (v : Env) : v.nextDraw.draws = v.draws + 1 := rfl
@[simp] theorem nextDraw_busLimit (v : Env) : v.nextDraw.busLimit = v.busLimit := rfl

end Sys2Proof.Machine
end

