-- ==== Sys2Proof/Laws/Ops.lean ====
section
/-! SUPPORT. One lemma per shared operation of Machine/Ops.lean: what it answers when every bus primitive returns
(`…_unlimited`), and everything it can have done when it answers a next state (`…_next`). -/

namespace Sys2Proof.Machine

/-! ## Sequencing -/

@[simp] theorem andThen_next {α β : Type} (a : α) (k : α → Result β) : andThen (.next a) k = k a := rfl

@[simp] theorem andThen_fault {α β : Type} (f : Fault) (k : α → Result β) : andThen (.fault f) k = .fault f := rfl

@[simp] theorem andThen_refused {α β : Type} (f : Refusal) (k : α → Result β) :
    andThen (.refused f) k = .refused f := rfl

/-- A sequence answers a next value exactly when both parts do. -/
theorem andThen_eq_next {α β : Type} {r : Result α} {k : α → Result β} {b : β} :
    andThen r k = .next b ↔ ∃ a, r = .next a ∧ k a = .next b := by
  cases r <;> simp

/-- A sequence faults exactly when its first part does, or its second part does after the first. -/
theorem andThen_eq_fault {α β : Type} {r : Result α} {k : α → Result β} {f : Fault} :
    andThen r k = .fault f ↔ r = .fault f ∨ ∃ a, r = .next a ∧ k a = .fault f := by
  cases r <;> simp

/-! ## The environment's draws -/

theorem takeStart_eq (s : State) :
    (takeStart s).2 = s.writeEnv (takeStart s).2.env ∧ (takeStart s).2.env.turns = s.env.turns
      ∧ (takeStart s).2.env.busLimit = s.env.busLimit ∧ (takeStart s).2.env.sends = s.env.sends
      ∧ (takeStart s).2.env.recvs = s.env.recvs := by
  unfold takeStart
  split <;> simp

theorem takeSend_eq (s : State) :
    (takeSend s).2 = s.writeEnv (takeSend s).2.env ∧ (takeSend s).2.env.turns = s.env.turns
      ∧ (takeSend s).2.env.busLimit = s.env.busLimit ∧ (takeSend s).2.env.starts = s.env.starts
      ∧ (takeSend s).2.env.recvs = s.env.recvs := by
  unfold takeSend
  split <;> simp

theorem takeRecv_eq (s : State) :
    (takeRecv s).2 = s.writeEnv (takeRecv s).2.env ∧ (takeRecv s).2.env.turns = s.env.turns
      ∧ (takeRecv s).2.env.busLimit = s.env.busLimit ∧ (takeRecv s).2.env.starts = s.env.starts
      ∧ (takeRecv s).2.env.sends = s.env.sends := by
  unfold takeRecv
  split <;> simp

@[simp] theorem clamp_request (req : Request) : (Turn.request req).clamp = .request req := rfl

@[simp] theorem clamp_pass (o : Offer) : (Turn.pass o).clamp = .pass o.clamp := rfl

/-- An offer cut to the bounds of R10 keeps them. -/
theorem clamp_legal (t : Turn) : t.clamp.legal := by
  cases t with
  | request req => trivial
  | pass o => exact ⟨Nat.min_le_right _ _, List.length_take ▸ Nat.min_le_left _ _⟩

/-- An offer that keeps the bounds of R10 is not cut. -/
theorem clamp_of_legal {o : Offer} (h : o.legal) : o.clamp = o := by
  simp [Offer.clamp, Nat.min_eq_left h.1, List.take_of_length_le h.2]

/-- Cutting twice cuts once. -/
@[simp] theorem clamp_clamp (t : Turn) : t.clamp.clamp = t.clamp := by
  have h := clamp_legal t
  cases t with
  | request req => rfl
  | pass o => exact congrArg Turn.pass (clamp_of_legal h)

/-- Every move of the environment keeps the bounds of R10, scripted or free. -/
theorem takeTurn_legal (s : State) : (takeTurn s).1.legal := by
  unfold takeTurn
  split <;> exact clamp_legal _

/-- The next move changes the script and nothing else. -/
theorem takeTurn_eq (s : State) : (takeTurn s).2 = s.writeEnv (takeTurn s).2.env
    ∧ (takeTurn s).2.env.busLimit = s.env.busLimit := by
  unfold takeTurn
  split <;> simp

@[simp] theorem takeTurn_cons (s : State) (t : Turn) (rest : List Turn) (h : s.env.turns = t :: rest) :
    takeTurn s = (t.clamp, s.writeEnv { s.env with turns := rest }) := by
  simp [takeTurn, h]

/-! ## The bus primitives -/

theorem busCall_unlimited {s : State} (prim : BusPrimitive) (h : s.env.busLimit = none) :
    busCall prim s = .next s := by
  simp [busCall, h]

theorem busCall_exhausted {s : State} (prim : BusPrimitive) (h : s.env.busLimit = some 0) :
    busCall prim s = .fault (.busNeverReturns prim) := by
  simp [busCall, h]

theorem busCall_next {prim : BusPrimitive} {s t : State} (h : busCall prim s = .next t) :
    ∃ v, t = s.writeEnv v ∧ v.turns = s.env.turns ∧ v.starts = s.env.starts ∧ v.sends = s.env.sends
      ∧ v.recvs = s.env.recvs := by
  unfold busCall at h
  split at h
  · cases h; exact ⟨s.env, rfl, rfl, rfl, rfl, rfl⟩
  · cases h
  · cases h; exact ⟨_, rfl, rfl, rfl, rfl, rfl⟩

theorem busStop_next {s t : State} (h : busStop s = .next t) :
    ∃ v, t = (s.writeEnv v).record .busStop ∧ v.turns = s.env.turns := by
  obtain ⟨a, ha, hk⟩ := andThen_eq_next.mp h
  obtain ⟨v, rfl, hv, -⟩ := busCall_next ha
  cases hk
  exact ⟨v, rfl, hv⟩

theorem busStart_next {addr : Byte} {s t : State} {a : StartAnswer} (h : busStart addr s = .next (a, t)) :
    ∃ v, t = (s.writeEnv v).record (.busStart addr Config.startTimeout a) ∧ v.turns = s.env.turns := by
  obtain ⟨b, hb, hk⟩ := andThen_eq_next.mp h
  obtain ⟨v, rfl, hv, -⟩ := busCall_next hb
  cases hk
  obtain ⟨h1, h2, -⟩ := takeStart_eq (s.writeEnv v)
  refine ⟨(takeStart (s.writeEnv v)).2.env, ?_, by simpa [hv] using h2⟩
  conv => lhs; rw [h1]
  rfl

theorem busSend_next {b : Byte} {s t : State} {a : SendAnswer} (h : busSend b s = .next (a, t)) :
    ∃ v, t = (s.writeEnv v).record (.busSend b a) ∧ v.turns = s.env.turns
      ∧ (∀ rest c, s.env.sends = c :: rest → a = c ∧ v.sends = rest) := by
  obtain ⟨c, hc, hk⟩ := andThen_eq_next.mp h
  obtain ⟨v, rfl, hv, -, hsends, -⟩ := busCall_next hc
  cases hk
  obtain ⟨h1, h2, -⟩ := takeSend_eq (s.writeEnv v)
  refine ⟨(takeSend (s.writeEnv v)).2.env, ?_, by simpa [hv] using h2, ?_⟩
  · conv => lhs; rw [h1]
    rfl
  · intro rest c hr
    simp [takeSend, hsends, hr]

theorem busRecv_next {last : Bool} {s t : State} {a : RecvAnswer} (h : busRecv last s = .next (a, t)) :
    ∃ v, t = (s.writeEnv v).record (.busRecv last a) ∧ v.turns = s.env.turns
      ∧ (∀ rest c, s.env.recvs = c :: rest → a = c ∧ v.recvs = rest) := by
  obtain ⟨c, hc, hk⟩ := andThen_eq_next.mp h
  obtain ⟨v, rfl, hv, -, -, hrecvs⟩ := busCall_next hc
  cases hk
  obtain ⟨h1, h2, -⟩ := takeRecv_eq (s.writeEnv v)
  refine ⟨(takeRecv (s.writeEnv v)).2.env, ?_, by simpa [hv] using h2, ?_⟩
  · conv => lhs; rw [h1]
    rfl
  · intro rest c hr
    simp [takeRecv, hrecvs, hr]

/-! ## The Bus Transaction Controller -/

theorem stop_idle {s : State} (h : s.is = .idle) : stop s = .next s := by simp [stop, h]

theorem stop_unlimited {s : State} (hl : s.env.busLimit = none) (h : s.is ≠ .idle) :
    stop s = .next ((s.record .busStop).writeIs .idle) := by
  simp [stop, h, busStop, busCall_unlimited, hl]

/-- Everything `stop` can have done. -/
theorem stop_next {s t : State} (h : stop s = .next t) :
    (s.is = .idle ∧ t = s)
      ∨ (s.is ≠ .idle ∧ ∃ v, t = ((s.writeEnv v).record .busStop).writeIs .idle ∧ v.turns = s.env.turns) := by
  unfold stop at h
  split at h <;> rename_i hi
  · cases h; exact .inl ⟨hi, rfl⟩
  · obtain ⟨a, ha, hk⟩ := andThen_eq_next.mp h
    obtain ⟨v, rfl, hv⟩ := busStop_next ha
    cases hk
    exact .inr ⟨hi, v, rfl, hv⟩

/-- The state after an acknowledged `start`, with the script `v` left. -/
def ackedState (addr : Byte) (v : Env) (s : State) : State :=
  (((s.writeEnv v).record (.busStart addr Config.startTimeout .ack)).writeIs .running).writeTs .addressAcked

/-- The state after a `start` that got no acknowledge, with the script `v` left. -/
def nakedState (addr : Byte) (v : Env) (s : State) : State :=
  ((((s.writeEnv v).record (.busStart addr Config.startTimeout .nak)).record .busStop).writeIs .idle).writeTs
    .addressNaked

/-- Everything `start` can have done. -/
theorem start_next {addr : Byte} {s t : State} {ok : Bool} (h : start addr s = .next (ok, t)) :
    ∃ v, v.turns = s.env.turns
      ∧ ((ok = true ∧ t = ackedState addr v s) ∨ (ok = false ∧ t = nakedState addr v s)) := by
  obtain ⟨⟨a, u⟩, hu, hk⟩ := andThen_eq_next.mp h
  obtain ⟨v, rfl, hv⟩ := busStart_next hu
  cases a with
  | ack => cases hk; exact ⟨v, hv, .inl ⟨rfl, rfl⟩⟩
  | nak =>
    obtain ⟨w, hw, hk⟩ := andThen_eq_next.mp hk
    cases hk
    rcases stop_next hw with ⟨hi, -⟩ | ⟨-, x, rfl, hx⟩
    · cases hi
    · exact ⟨x, hx.trans hv, .inr ⟨rfl, rfl⟩⟩

theorem start_unlimited {s : State} (addr : Byte) (hl : s.env.busLimit = none) :
    start addr s = .next (match (takeStart s).1 with
      | .ack => (true, ackedState addr (takeStart s).2.env s)
      | .nak => (false, nakedState addr (takeStart s).2.env s)) := by
  obtain ⟨h1, -, h3, -⟩ := takeStart_eq s
  rw [hl] at h3
  rcases h : takeStart s with ⟨a, u⟩
  rw [h] at h1 h3
  simp only [start, busStart, busCall_unlimited _ hl, andThen_next, h]
  cases a with
  | ack =>
    simp only [ackedState]
    conv => lhs; rw [show u = s.writeEnv u.env from h1]
  | nak =>
    rw [stop_unlimited (by simpa using h3) (by simp)]
    simp only [andThen_next, nakedState]
    conv => lhs; rw [show u = s.writeEnv u.env from h1]
    rfl

/-- Everything `reset` can have done (R144). -/
theorem busReset_next {s t : State} (h : busReset s = .next t) :
    ((s.is = .unconfigured ∨ s.is = .idle) ∧ t = s.writePt .empty)
      ∨ (s.is ≠ .unconfigured ∧ s.is ≠ .idle ∧ ∃ v, v.turns = s.env.turns
          ∧ t = (((s.writeEnv v).record .busStop).writeIs .idle).writePt .empty) := by
  obtain ⟨u, hu, hk⟩ := andThen_eq_next.mp h
  cases hk
  split at hu <;> rename_i hi
  · rcases stop_next hu with ⟨h0, -⟩ | ⟨-, v, rfl, hv⟩
    · exact absurd h0 hi.2
    · exact .inr ⟨hi.1, hi.2, v, hv, rfl⟩
  · cases hu
    refine .inl ⟨?_, rfl⟩
    by_cases h1 : s.is = .unconfigured
    · exact .inl h1
    · exact .inr (Decidable.byContradiction fun h2 => hi ⟨h1, h2⟩)

/-! ## Admission -/

/-- The body of an admitted request is what answers. -/
theorem admitted_none {req : Request} {s : State} {body : Result State} (h : admission req s = none) :
    admitted req s body = body := by
  simp [admitted, h]

theorem admitted_some {req : Request} {s : State} {body : Result State} {f : Fault} (h : admission req s = some f) :
    admitted req s body = .fault f := by
  simp [admitted, h]

/-- An admitted request that answers a next state raised no fault, and its body answers it. -/
theorem admitted_next {req : Request} {s t : State} {body : Result State} (h : admitted req s body = .next t) :
    admission req s = none ∧ body = .next t := by
  unfold admitted at h
  split at h
  · cases h
  · rename_i hn; exact ⟨hn, h⟩

end Sys2Proof.Machine
end

