-- ==== Sys2Proof/Laws/Exec.lean ====
section
/-! SUPPORT. What the commands can do: the operands of an encoded command, the admission of each, and one lemma per
shared operation of SET_DELAY and PERFORM_IO. -/

namespace Sys2Proof.Machine

/-! ## Operands of an encoded command -/

@[simp] theorem performIoOf_fields (b e : Bool) (f : Fields) : (Instr.performIoOf b e f).fields = f := by
  cases b <;> cases e <;> rfl

@[simp] theorem requestOf_packet (i : Instr) (s : State) : (requestOf i s).packet = encode i := rfl

@[simp] theorem requestOf_dataStage (i : Instr) (s : State) : (requestOf i s).dataStage = s.dataStage := rfl

@[simp] theorem lengthOf_encode (i : Instr) : lengthOf (encode i) = i.fields.wLength.toNat := by
  simp [lengthOf]

@[simp] theorem delayOf_encode (i : Instr) : delayOf (encode i) = i.fields.wValue.toInt := by
  simp [delayOf]

theorem dirBit_eq_one (p : Packet) : dirBit p = 1 ↔ p.wValue.getLsbD 0 = true := by
  unfold dirBit
  constructor
  · intro h
    have := congrArg (fun x : BitVec 1 => x.getLsbD 0) h
    simpa using this
  · intro h
    apply BitVec.eq_of_getLsbD_eq
    intro i hi
    have : i = 0 := by omega
    subst this
    simpa using h

theorem dirOf_eq (p : Packet) : dirOf p = if p.wValue.getLsbD 0 then .read else .write := by
  simp only [dirOf, dirBit_eq_one]

@[simp] theorem dirOf_encode (i : Instr) :
    dirOf (encode i) = if i.fields.wValue.getLsbD 0 then .read else .write := by
  rw [dirOf_eq, encode_wValue]

@[simp] theorem endFlag_performIoOf (b e : Bool) (f : Fields) : endFlag (encode (.performIoOf b e f)) = e := by
  cases b <;> cases e <;>
    simp only [endFlag, encode_bRequest, Instr.performIoOf, Instr.opcode] <;> decide

@[simp] theorem isPerformIo_performIoOf (b e : Bool) (f : Fields) :
    isPerformIo (Instr.performIoOf b e f).opcode = true := by
  cases b <;> cases e <;> simp only [Instr.performIoOf, Instr.opcode] <;> decide

@[simp] theorem opcode_performIoOf_ne (b e : Bool) (f : Fields) :
    (Instr.performIoOf b e f).opcode ≠ 2#8 := by
  cases b <;> cases e <;> simp only [Instr.performIoOf, Instr.opcode] <;> decide

theorem isPerformIo_echo : isPerformIo 0x00 = false := by decide
theorem isPerformIo_getCapabilities : isPerformIo 0x01 = false := by decide
theorem isPerformIo_setDelay : isPerformIo 0x02 = false := by decide
theorem isPerformIo_getStatus : isPerformIo 0x03 = false := by decide

/-! ## Admission of each command -/

theorem inFlight_iff (s : State) : inFlight s = true ↔ 0 < s.pt.remaining := by simp [inFlight]

theorem inFlight_eq_false (s : State) : inFlight s = false ↔ s.pt.remaining = 0 := by simp [inFlight]

/-- The bus is held in exactly three statuses (R33). -/
theorem busHeld_iff (s : State) : busHeld s = true ↔ s.is = .running ∨ s.is = .readFailed ∨ s.is = .writeFailed := by
  unfold busHeld
  cases s.is <;> simp [heldStatus]

/-- A START is a repeated one exactly when the bus is held (R146). -/
theorem startCondition_repeatedStart (s : State) : startCondition s = .repeatedStart ↔ busHeld s = true := by
  unfold startCondition
  split <;> simp_all

/-- A quiescent state has no transfer in flight (R270). -/
theorem quiescent_iff (s : State) : quiescent s = true ↔ phase s = .noTransfer := by
  unfold quiescent phase
  split
  · simp_all
  · split <;> simp_all

theorem wLength_toNat_pos (f : Fields) : 0 < f.wLength.toNat ↔ f.wLength ≠ 0 := by
  constructor
  · intro h h0; simp [h0] at h
  · intro h
    refine Nat.pos_of_ne_zero fun h0 => h ?_
    exact BitVec.eq_of_toNat_eq (by simpa using h0)

/-- The fault a PERFORM_IO raises, if any (R190, R206, R208). -/
theorem admission_performIoOf (b e : Bool) (f : Fields) (s : State) :
    (0 < s.pt.remaining ∧ admission (requestOf (.performIoOf b e f) s) s
        = some (.overlappingTransfer (requestOf (.performIoOf b e f) s)))
      ∨ (s.pt.remaining = 0 ∧ ¬ directionAgrees f s ∧ admission (requestOf (.performIoOf b e f) s) s
        = some (.hostProtocolViolation (requestOf (.performIoOf b e f) s)))
      ∨ (s.pt.remaining = 0 ∧ directionAgrees f s ∧ admission (requestOf (.performIoOf b e f) s) s = none) := by
  by_cases h : 0 < s.pt.remaining
  · exact .inl ⟨h, by simp [admission, inFlight, h]⟩
  · have h0 : s.pt.remaining = 0 := by omega
    refine .inr ?_
    by_cases hd : directionAgrees f s
    · refine .inr ⟨h0, hd, ?_⟩
      rcases hd with hl | hd
      · simp [admission, inFlight, h0, hostContractBroken, hl]
      · simp [admission, inFlight, h0, hostContractBroken, hd]
    · refine .inl ⟨h0, hd, ?_⟩
      simp only [directionAgrees, not_or] at hd
      have hp := (wLength_toNat_pos f).mpr hd.1
      have hc : hostContractBroken (requestOf (.performIoOf b e f) s) = true := by
        simp only [hostContractBroken, requestOf_packet, requestOf_dataStage, encode_bRequest, dirOf_encode,
          lengthOf_encode, performIoOf_fields, isPerformIo_performIoOf, hp, bne_iff_ne.mpr hd.2, decide_true,
          Bool.true_and, Bool.true_or]
      simp [admission, inFlight, h0, hc]

/-- The fault a SET_DELAY raises on admission, if any: only a data stage (R196, R209). -/
theorem admission_setDelay (f : Fields) (s : State) :
    admission (requestOf (.setDelay f) s) s
      = if f.wLength = 0 then none else some (.hostProtocolViolation (requestOf (.setDelay f) s)) := by
  have h1 : isPerformIo 2#8 = false := isPerformIo_setDelay
  by_cases h : f.wLength = 0 <;>
    simp [admission, hostContractBroken, h1, h, Instr.opcode, Instr.fields]

/-- The fault a request that is neither PERFORM_IO nor SET_DELAY raises, if any (R206). -/
theorem admission_other {req : Request} (s : State) (h1 : isPerformIo req.packet.bRequest = false)
    (h2 : req.packet.bRequest ≠ 0x02) :
    admission req s = if 0 < s.pt.remaining then some (.hostProtocolViolation req) else none := by
  replace h2 : ¬ req.packet.bRequest = 2#8 := h2
  by_cases h : 0 < s.pt.remaining <;> simp [admission, hostContractBroken, inFlight, h1, h2, h]

/-- A request refused exactly while a transfer is in flight was admitted with none in flight. -/
theorem admissionIf_none {s : State} {r : Fault} (h : (if 0 < s.pt.remaining then some r else none) = none) :
    s.pt.remaining = 0 := by
  split at h
  · cases h
  · omega

/-! ## SET_DELAY -/

/-- The state after a successful SET_DELAY (R194), with the script `v` left. -/
def clockedState (c : ClockConfig) (v : Env) (s : State) : State :=
  { s with
    ts := .idle
    is := .idle
    pt := .empty
    cc := some c
    clockReg := c
    trace := s.trace ++ (if s.is = .unconfigured ∨ s.is = .idle then [] else [.busStop])
      ++ [.busSetClock c.tier c.bitLength, .usbStatusStage]
    env := v }

theorem applyClock_next {c : ClockConfig} {s t : State} (h : applyClock c s = .next t) :
    ∃ v, v.turns = s.env.turns ∧ t = clockedState c v s := by
  obtain ⟨u, hu, hk⟩ := andThen_eq_next.mp h
  obtain ⟨w, hw, hk⟩ := andThen_eq_next.mp hk
  obtain ⟨x, hx, hy⟩ := andThen_eq_next.mp hw
  obtain ⟨v, rfl, hv, -⟩ := busCall_next hx
  cases hk
  cases hy
  rcases busReset_next hu with ⟨hi, rfl⟩ | ⟨h1, h2, y, hy, rfl⟩
  · refine ⟨v, hv, ?_⟩
    simp [clockedState, hi, State.record, State.writeEnv, State.writePt, State.writeIs, State.writeTs,
      State.writeCc, State.writeClockReg]
  · refine ⟨v, hv.trans (by simpa using hy), ?_⟩
    simp [clockedState, h1, h2, State.record, State.writeEnv, State.writePt, State.writeIs, State.writeTs,
      State.writeCc, State.writeClockReg]

/-- Everything SET_DELAY can have done: nothing but the unanswered request, or the new clock (R194, R195). -/
theorem execSetDelay_next {f : Fields} {s t : State} (h : execSetDelay f s = .next t) :
    f.wLength = 0 ∧ 0 < f.wValue.toInt
      ∧ ((computeClock f.wValue.toInt = none ∧ t = s.record (.unanswered (requestOf (.setDelay f) s)))
        ∨ ∃ c v, computeClock f.wValue.toInt = some c ∧ v.turns = s.env.turns ∧ t = clockedState c v s) := by
  obtain ⟨ha, hb⟩ := admitted_next h
  rw [admission_setDelay] at ha
  split at ha
  case isFalse => cases ha
  rename_i hl
  refine ⟨hl, ?_⟩
  simp only [setDelayWith, requestOf_packet, delayOf_encode, Instr.fields] at hb
  split at hb
  · cases hb
  · rename_i hd
    refine ⟨by omega, ?_⟩
    split at hb <;> rename_i hc
    · cases hb; exact .inl ⟨hc, rfl⟩
    · obtain ⟨v, hv, ht⟩ := applyClock_next hb
      exact .inr ⟨_, v, hc, hv, ht⟩

/-! ## PERFORM_IO -/

/-- The state after a PERFORM_IO whose address was acknowledged (R199), with the script `v` left. -/
def ioAcked (p : Packet) (v : Env) (s : State) : State :=
  let bus := Event.busStart (addr8 p) Config.startTimeout .ack
  if lengthOf p = 0 then
    { s with
      ts := .addressAcked
      is := if endFlag p then .idle else .running
      trace := s.trace ++ [bus] ++ (if endFlag p then [.busStop] else []) ++ [.usbStatusStage]
      env := v }
  else
    { s with
      ts := .addressAcked
      is := .running
      pt := ⟨dirOf p, lengthOf p, endFlag p⟩
      trace := s.trace ++ [bus]
      env := v }

/-- The state after a PERFORM_IO whose address got no acknowledge (R199, R204), with the script `v` left. -/
def ioNaked (p : Packet) (v : Env) (s : State) : State :=
  let bus := [Event.busStart (addr8 p) Config.startTimeout .nak, .busStop]
  if lengthOf p = 0 then
    { s with ts := .addressNaked, is := .idle, trace := s.trace ++ bus ++ [.usbStatusStage], env := v }
  else
    { s with
      ts := .addressNaked
      is := .idle
      pt := ⟨dirOf p, lengthOf p, endFlag p⟩
      trace := s.trace ++ bus
      env := v }

/-- Everything `performIO` can have done (R199). -/
theorem performIo_next {req : Request} {s t : State} (h : performIo req s = .next t) :
    (s.ts = .unconfigured ∧ t = s.record (.unanswered req))
      ∨ (s.ts ≠ .unconfigured ∧ ∃ v, v.turns = s.env.turns
          ∧ (t = ioAcked req.packet v s ∨ t = ioNaked req.packet v s)) := by
  unfold performIo at h
  split at h
  · rename_i hu; cases h; exact .inl ⟨hu, rfl⟩
  · rename_i hu
    refine .inr ⟨hu, ?_⟩
    obtain ⟨⟨ok, u⟩, hs, h⟩ := andThen_eq_next.mp h
    obtain ⟨w, hw, h⟩ := andThen_eq_next.mp h
    obtain ⟨x, hx, h⟩ := andThen_eq_next.mp h
    cases h
    obtain ⟨v, hv, ⟨rfl, rfl⟩ | ⟨rfl, rfl⟩⟩ := start_next hs
    · cases hw
      split at hx
      · rename_i he
        rcases stop_next hx with ⟨hi, -⟩ | ⟨-, y, rfl, hy⟩
        · cases hi
        · refine ⟨y, hy.trans hv, .inl ?_⟩
          simp [armOrAcknowledge, ioAcked, he.1, he.2, ackedState, State.record, State.writeEnv, State.writeIs,
            State.writeTs]
      · rename_i he
        cases hx
        refine ⟨v, hv, .inl ?_⟩
        by_cases hl : lengthOf req.packet = 0
        · have he' : endFlag req.packet = false := by simpa [hl] using he
          simp [armOrAcknowledge, ioAcked, hl, he', ackedState, State.record, State.writeEnv, State.writeIs,
            State.writeTs]
        · have hp : 0 < lengthOf req.packet := by omega
          simp [armOrAcknowledge, ioAcked, hl, hp, deferStopOf, ackedState, State.record, State.writeEnv,
            State.writeIs, State.writeTs, State.writePt]
    · have hidle : (nakedState (addr8 req.packet) v s).is = .idle := rfl
      simp only [Bool.false_eq_true, if_false, stop_idle hidle] at hw
      cases hw
      have hx' : x = nakedState (addr8 req.packet) v s := by
        split at hx
        · rw [stop_idle hidle] at hx; cases hx; rfl
        · cases hx; rfl
      subst hx'
      refine ⟨v, hv, .inr ?_⟩
      by_cases hl : lengthOf req.packet = 0
      · simp [armOrAcknowledge, ioNaked, hl, nakedState, State.record, State.writeEnv, State.writeIs, State.writeTs]
      · have hp : 0 < lengthOf req.packet := by omega
        simp [armOrAcknowledge, ioNaked, hl, hp, deferStopOf, nakedState, State.record, State.writeEnv,
          State.writeIs, State.writeTs, State.writePt]

/-- The four PERFORM_IO arms are one operation on the request of their own packet (R201). -/
theorem exec_performIoOf (b e : Bool) (f : Fields) (s : State) :
    exec (.performIoOf b e f) s = admitted (requestOf (.performIoOf b e f) s) s
      (performIo (requestOf (.performIoOf b e f) s) s) := by
  cases b <;> cases e <;> rfl

/-- Every command is one of the reply commands, SET_DELAY, or PERFORM_IO with its flags. -/
theorem instr_cases (i : Instr) :
    (∃ f, i = .echo f) ∨ (∃ f, i = .getCapabilities f) ∨ (∃ f, i = .getStatus f) ∨ (∃ f, i = .setDelay f)
      ∨ ∃ b e f, i = .performIoOf b e f := by
  cases i with
  | echo f => exact .inl ⟨f, rfl⟩
  | getCapabilities f => exact .inr (.inl ⟨f, rfl⟩)
  | getStatus f => exact .inr (.inr (.inl ⟨f, rfl⟩))
  | setDelay f => exact .inr (.inr (.inr (.inl ⟨f, rfl⟩)))
  | performIo f => exact .inr (.inr (.inr (.inr ⟨false, false, f, rfl⟩)))
  | performIoBegin f => exact .inr (.inr (.inr (.inr ⟨true, false, f, rfl⟩)))
  | performIoEnd f => exact .inr (.inr (.inr (.inr ⟨false, true, f, rfl⟩)))
  | performIoBeginEnd f => exact .inr (.inr (.inr (.inr ⟨true, true, f, rfl⟩)))

/-- Everything a command can have done when it answers a next state: a reply, an unanswered request, a new clock, or
a transaction phase. -/
theorem exec_next {i : Instr} {s t : State} (h : exec i s = .next t) :
    (s.pt.remaining = 0 ∧ ∃ bytes, t = s.record (.usbReply bytes))
      ∨ t = s.record (.unanswered (requestOf i s))
      ∨ (∃ f c v, i = .setDelay f ∧ computeClock f.wValue.toInt = some c ∧ v.turns = s.env.turns
          ∧ t = clockedState c v s)
      ∨ (s.pt.remaining = 0 ∧ s.ts ≠ .unconfigured ∧ ∃ b e f v, i = .performIoOf b e f
          ∧ v.turns = s.env.turns ∧ (t = ioAcked (encode i) v s ∨ t = ioNaked (encode i) v s)) := by
  rcases instr_cases i with ⟨f, rfl⟩ | ⟨f, rfl⟩ | ⟨f, rfl⟩ | ⟨f, rfl⟩ | ⟨b, e, f, rfl⟩
  · obtain ⟨ha, hb⟩ := admitted_next (show execEcho f s = .next t from h)
    rw [admission_other s isPerformIo_echo (show (0x00 : Byte) ≠ 0x02 by decide)] at ha
    cases hb
    exact .inl ⟨admissionIf_none ha, _, rfl⟩
  · obtain ⟨ha, hb⟩ := admitted_next (show execGetCapabilities f s = .next t from h)
    rw [admission_other s isPerformIo_getCapabilities (show (0x01 : Byte) ≠ 0x02 by decide)] at ha
    cases hb
    exact .inl ⟨admissionIf_none ha, _, rfl⟩
  · obtain ⟨ha, hb⟩ := admitted_next (show execGetStatus f s = .next t from h)
    rw [admission_other s isPerformIo_getStatus (show (0x03 : Byte) ≠ 0x02 by decide)] at ha
    cases hb
    exact .inl ⟨admissionIf_none ha, _, rfl⟩
  · obtain ⟨-, -, h⟩ := execSetDelay_next (show execSetDelay f s = .next t from h)
    rcases h with ⟨-, ht⟩ | ⟨c, v, hc, hv, ht⟩
    · exact .inr (.inl ht)
    · exact .inr (.inr (.inl ⟨f, c, v, rfl, hc, hv, ht⟩))
  · rw [exec_performIoOf] at h
    obtain ⟨ha, hb⟩ := admitted_next h
    rcases admission_performIoOf b e f s with ⟨-, h1⟩ | ⟨-, -, h1⟩ | ⟨h0, -, -⟩
    · rw [h1] at ha; cases ha
    · rw [h1] at ha; cases ha
    · rcases performIo_next hb with ⟨-, ht⟩ | ⟨hu, v, hv, ht⟩
      · exact .inr (.inl ht)
      · exact .inr (.inr (.inr ⟨h0, hu, b, e, f, v, rfl, hv, ht⟩))

end Sys2Proof.Machine
end

