-- ==== Sys2Proof/Laws/Pump.lean ====
section
/-! SUPPORT. What a scheduler pass can do: the runs of the two byte loops as inductive predicates, the one lemma that
says a pass is such a run, and the facts that hold of every run. -/

namespace Sys2Proof.Machine

/-! ## One byte -/

theorem receiveOrFill_next {s t : State} (h : receiveOrFill s = .next t) :
    (s.is ≠ .running ∧ t = s.record (.usbPut 0xFF))
      ∨ (s.is = .running ∧ ∃ v a, v.turns = s.env.turns
          ∧ (∀ rest c, s.env.recvs = c :: rest → a = c ∧ v.recvs = rest)
          ∧ t = { s with
              is := if a = .fail then .readFailed else .running
              trace := s.trace ++ [.busRecv (decide (s.pt.remaining = 0)) a, .usbPut (deliveredByte a)]
              env := v }) := by
  unfold receiveOrFill at h
  split at h <;> rename_i hi
  · refine .inr ⟨hi, ?_⟩
    obtain ⟨⟨a, u⟩, hu, hk⟩ := andThen_eq_next.mp h
    obtain ⟨v, rfl, hv, hr⟩ := busRecv_next hu
    refine ⟨v, a, by simpa using hv, by simpa using hr, ?_⟩
    cases a <;> cases hk <;> simp [State.record, State.writeIs, State.writeEnv, deliveredByte, fillerByte, hi]
  · cases h; exact .inl ⟨hi, rfl⟩

theorem sendOrDiscard_next {b : Byte} {s t : State} (h : sendOrDiscard b s = .next t) :
    (s.is ≠ .running ∧ t = s)
      ∨ (s.is = .running ∧ ∃ v a, v.turns = s.env.turns
          ∧ (∀ rest c, s.env.sends = c :: rest → a = c ∧ v.sends = rest)
          ∧ t = { s with
              is := if a = .fail then .writeFailed else .running
              trace := s.trace ++ [.busSend b a]
              env := v }) := by
  unfold sendOrDiscard at h
  split at h <;> rename_i hi
  · refine .inr ⟨hi, ?_⟩
    obtain ⟨⟨a, u⟩, hu, hk⟩ := andThen_eq_next.mp h
    obtain ⟨v, rfl, hv, hr⟩ := busSend_next hu
    refine ⟨v, a, by simpa using hv, by simpa using hr, ?_⟩
    cases a <;> cases hk <;> simp [State.record, State.writeIs, State.writeEnv, hi]
  · cases h; exact .inl ⟨hi, rfl⟩

/-! ## The loops as runs -/

/-- `ReadRun is rem space es is'`: from status `is` with `rem` bytes left and `space` free bytes, a read pass can
record `es` and leave status `is'` (R162 to R165). -/
inductive ReadRun : InternalStatus → Nat → Nat → List Event → InternalStatus → Prop
  | done (is : InternalStatus) (n : Nat) : ReadRun is 0 n [] is
  | full (is : InternalStatus) (r : Nat) : ReadRun is (r + 1) 0 [.usbInSpace 0] is
  | byteOk (b : Byte) (r n : Nat) (es : List Event) (is' : InternalStatus) (h : ReadRun .running r n es is') :
      ReadRun .running (r + 1) (n + 1)
        (.usbInSpace (n + 1) :: .busRecv (decide (r = 0)) (.ok b) :: .usbPut b :: es) is'
  | byteFail (r n : Nat) (es : List Event) (is' : InternalStatus) (h : ReadRun .readFailed r n es is') :
      ReadRun .running (r + 1) (n + 1)
        (.usbInSpace (n + 1) :: .busRecv (decide (r = 0)) .fail :: .usbPut 0xFF :: es) is'
  | filler (is : InternalStatus) (r n : Nat) (es : List Event) (is' : InternalStatus) (hi : is ≠ .running)
      (h : ReadRun is r n es is') :
      ReadRun is (r + 1) (n + 1) (.usbInSpace (n + 1) :: .usbPut 0xFF :: es) is'

/-- `WriteRun is rem chunk es is'`: from status `is` with `rem` bytes left and the bytes `chunk` offered, a write pass
can record `es` and leave status `is'` (R166 to R168). -/
inductive WriteRun : InternalStatus → Nat → List Byte → List Event → InternalStatus → Prop
  | done (is : InternalStatus) (bs : List Byte) : WriteRun is 0 bs [] is
  | empty (is : InternalStatus) (r : Nat) : WriteRun is (r + 1) [] [.usbOutAvail 0] is
  | byteOk (b : Byte) (bs : List Byte) (r : Nat) (es : List Event) (is' : InternalStatus)
      (h : WriteRun .running r bs es is') :
      WriteRun .running (r + 1) (b :: bs) (.usbOutAvail (bs.length + 1) :: .usbTake b :: .busSend b .ok :: es) is'
  | byteFail (b : Byte) (bs : List Byte) (r : Nat) (es : List Event) (is' : InternalStatus)
      (h : WriteRun .writeFailed r bs es is') :
      WriteRun .running (r + 1) (b :: bs) (.usbOutAvail (bs.length + 1) :: .usbTake b :: .busSend b .fail :: es) is'
  | discard (is : InternalStatus) (b : Byte) (bs : List Byte) (r : Nat) (es : List Event) (is' : InternalStatus)
      (hi : is ≠ .running) (h : WriteRun is r bs es is') :
      WriteRun is (r + 1) (b :: bs) (.usbOutAvail (bs.length + 1) :: .usbTake b :: es) is'

/-- The state after a byte loop that recorded `es`, moved `k` bytes and left status `is'` and the script `v`. -/
def movedState (k : Nat) (es : List Event) (is' : InternalStatus) (v : Env) (s : State) : State :=
  { s with
    pt := { s.pt with remaining := s.pt.remaining - k }
    is := is'
    trace := s.trace ++ es
    env := v }

theorem movedState_done {s : State} (h : s.pt.remaining = 0) (k : Nat) : movedState k [] s.is s.env s = s := by
  simp only [movedState, List.append_nil, h, Nat.zero_sub]
  rw [← h]

/-- A read pass is a run of the read loop. -/
theorem readPass_next {n : Nat} : ∀ {s t : State}, readPass n s = .next t →
    ∃ es is' v, ReadRun s.is s.pt.remaining n es is' ∧ t = movedState n es is' v s ∧ v.turns = s.env.turns
      ∧ (min s.pt.remaining n ≤ s.env.recvs.length →
          s.env.recvs = (receivedBytes es).map Prod.snd ++ v.recvs) := by
  induction n with
  | zero =>
    intro s t h
    unfold readPass at h
    split at h <;> rename_i h0 <;> cases h
    · exact ⟨[], s.is, s.env, by rw [h0]; exact .done _ _, by simp [movedState], rfl, by simp [receivedBytes]⟩
    · obtain ⟨r, hr⟩ := Nat.exists_eq_succ_of_ne_zero h0
      exact ⟨[.usbInSpace 0], s.is, s.env, by rw [hr]; exact .full _ _, by simp [movedState, State.record], rfl,
        by simp [receivedBytes]⟩
  | succ n ih =>
    intro s t h
    unfold readPass at h
    split at h <;> rename_i h0
    · cases h
      exact ⟨[], s.is, s.env, by rw [h0]; exact .done _ _, (movedState_done h0 _).symm, rfl, by simp [receivedBytes]⟩
    · obtain ⟨r, hr⟩ := Nat.exists_eq_succ_of_ne_zero h0
      obtain ⟨u, hu, hk⟩ := andThen_eq_next.mp h
      obtain ⟨es, is', v, hrun, rfl, hv, hscript⟩ := ih hk
      rcases receiveOrFill_next hu with ⟨hi, rfl⟩ | ⟨hi, w, a, hw, ha, rfl⟩
      · refine ⟨.usbInSpace (n + 1) :: .usbPut 0xFF :: es, is', v, ?_, ?_, by simpa using hv, ?_⟩
        · rw [hr]
          exact .filler _ _ _ _ _ (by simpa using hi) (by simpa [hr] using hrun)
        · simp [movedState, State.record, State.countDown, State.writePt, Nat.sub_sub, Nat.add_comm]
        · intro hmin
          simpa [receivedBytes] using hscript (by simp at hmin ⊢; omega)
      · simp only [record_is, countDown_is] at hi
        refine ⟨.usbInSpace (n + 1) :: .busRecv (decide (s.pt.remaining - 1 = 0)) a :: .usbPut (deliveredByte a) :: es,
          is', v, ?_, ?_, by simpa [hw] using hv, ?_⟩
        · rw [hr, hi]
          cases a with
          | ok b => exact .byteOk _ _ _ _ _ (by simpa [hr] using hrun)
          | fail => exact .byteFail _ _ _ _ (by simpa [hr] using hrun)
        · simp [movedState, State.record, State.countDown, State.writePt, Nat.sub_sub, Nat.add_comm]
          rfl
        · intro hmin
          cases hrec : s.env.recvs with
          | nil => simp [hrec, hr] at hmin
          | cons c rest =>
            obtain ⟨rfl, hrest⟩ := ha rest c (by simpa using hrec)
            have := hscript (by simp [hrest, hrec, hr] at hmin ⊢; omega)
            simpa [receivedBytes, hrest] using this

/-- A write pass is a run of the write loop. -/
theorem writePass_next {bs : List Byte} : ∀ {s t : State}, writePass bs s = .next t →
    ∃ es is' v, WriteRun s.is s.pt.remaining bs es is' ∧ t = movedState bs.length es is' v s ∧ v.turns = s.env.turns
      ∧ (min s.pt.remaining bs.length ≤ s.env.sends.length →
          s.env.sends = (sentBytes es).map Prod.snd ++ v.sends) := by
  induction bs with
  | nil =>
    intro s t h
    unfold writePass at h
    split at h <;> rename_i h0 <;> cases h
    · exact ⟨[], s.is, s.env, by rw [h0]; exact .done _ _, by simp [movedState], rfl, by simp [sentBytes]⟩
    · obtain ⟨r, hr⟩ := Nat.exists_eq_succ_of_ne_zero h0
      exact ⟨[.usbOutAvail 0], s.is, s.env, by rw [hr]; exact .empty _ _, by simp [movedState, State.record], rfl,
        by simp [sentBytes]⟩
  | cons b bs ih =>
    intro s t h
    unfold writePass at h
    split at h <;> rename_i h0
    · cases h
      exact ⟨[], s.is, s.env, by rw [h0]; exact .done _ _, (movedState_done h0 _).symm, rfl, by simp [sentBytes]⟩
    · obtain ⟨r, hr⟩ := Nat.exists_eq_succ_of_ne_zero h0
      obtain ⟨u, hu, hk⟩ := andThen_eq_next.mp h
      obtain ⟨es, is', v, hrun, rfl, hv, hscript⟩ := ih hk
      rcases sendOrDiscard_next hu with ⟨hi, rfl⟩ | ⟨hi, w, a, hw, ha, rfl⟩
      · refine ⟨.usbOutAvail (bs.length + 1) :: .usbTake b :: es, is', v, ?_, ?_, by simpa using hv, ?_⟩
        · rw [hr]
          exact .discard _ _ _ _ _ _ (by simpa using hi) (by simpa [hr] using hrun)
        · simp [movedState, State.record, State.countDown, State.writePt, Nat.sub_sub, Nat.add_comm]
        · intro hmin
          simpa [sentBytes] using hscript (by simp at hmin ⊢; omega)
      · simp only [record_is, countDown_is] at hi
        refine ⟨.usbOutAvail (bs.length + 1) :: .usbTake b :: .busSend b a :: es, is', v, ?_, ?_,
          by simpa [hw] using hv, ?_⟩
        · rw [hr, hi]
          cases a with
          | ok => exact .byteOk _ _ _ _ _ (by simpa [hr] using hrun)
          | fail => exact .byteFail _ _ _ _ _ (by simpa [hr] using hrun)
        · simp [movedState, State.record, State.countDown, State.writePt, Nat.sub_sub, Nat.add_comm]
        · intro hmin
          cases hrec : s.env.sends with
          | nil => simp [hrec, hr] at hmin
          | cons c rest =>
            obtain ⟨rfl, hrest⟩ := ha rest c (by simpa using hrec)
            have := hscript (by simp [hrest, hrec, hr] at hmin ⊢; omega)
            simpa [sentBytes, hrest] using this

/-! ## Completion and the pass -/

/-- The state after `complete()` (R170), with the script `v` left. -/
def completedState (v : Env) (s : State) : State :=
  { s with
    ts := if failureLatched s then .addressNaked else s.ts
    is := if s.pt.deferStop then .idle else s.is
    pt := .empty
    trace := s.trace ++ (if s.pt.deferStop ∧ s.is ≠ .idle then [.busStop] else [])
      ++ (if s.pt.dir = .write then [.usbStatusStage] else [])
    env := v }

theorem collapseFailure_eq (s : State) :
    collapseFailure s = { s with ts := if failureLatched s then .addressNaked else s.ts } := by
  unfold collapseFailure
  split <;> simp [State.writeTs]

/-- Everything a completion can have done. -/
theorem complete_next {s t : State} (h : complete s = .next t) :
    ∃ v, v.turns = s.env.turns ∧ t = completedState v s := by
  obtain ⟨u, hu, hk⟩ := andThen_eq_next.mp h
  rw [collapseFailure_eq] at hu
  cases hk
  by_cases hd : s.pt.deferStop = true
  · rw [if_pos hd] at hu
    rcases stop_next hu with ⟨hi, rfl⟩ | ⟨hi, v, rfl, hv⟩
    · refine ⟨s.env, rfl, ?_⟩
      simp only at hi
      cases hdir : s.pt.dir <;> simp [completedState, State.record, State.writePt, hi, hd, hdir]
    · refine ⟨v, hv, ?_⟩
      simp only at hi
      cases hdir : s.pt.dir <;>
        simp [completedState, State.record, State.writePt, State.writeEnv, State.writeIs, hi, hd, hdir]
  · rw [if_neg hd] at hu
    cases hu
    refine ⟨s.env, rfl, ?_⟩
    cases hdir : s.pt.dir <;> simp [completedState, State.record, State.writePt, hd, hdir]

/-- Everything the end of a moving pass can have done. -/
theorem endPass_next {s t : State} (h : endPass s = .next t) :
    (s.pt.remaining ≠ 0 ∧ t = s.record .usbChunkComplete)
      ∨ (s.pt.remaining = 0 ∧ ∃ v, v.turns = s.env.turns ∧ t = completedState v (s.record .usbChunkComplete)) := by
  unfold endPass completeIfDone at h
  split at h <;> rename_i h0
  · obtain ⟨v, hv, rfl⟩ := complete_next h
    exact .inr ⟨h0, v, hv, rfl⟩
  · cases h; exact .inl ⟨h0, rfl⟩

/-- The state after a pass that moved bytes. -/
inductive PassEnd (u : State) : State → Prop
  | more (h : u.pt.remaining ≠ 0) : PassEnd u (u.record .usbChunkComplete)
  | last (h : u.pt.remaining = 0) (v : Env) (hv : v.turns = u.env.turns) :
      PassEnd u (completedState v (u.record .usbChunkComplete))

theorem endPass_passEnd {s t : State} (h : endPass s = .next t) : PassEnd s t := by
  rcases endPass_next h with ⟨h0, rfl⟩ | ⟨h0, v, hv, rfl⟩
  · exact .more h0
  · exact .last h0 v hv

/-- Everything a scheduler pass can have done. -/
theorem pump_next {o : Offer} {s t : State} (h : pump o s = .next t) :
    (s.pt.remaining = 0 ∧ t = s)
      ∨ (0 < s.pt.remaining ∧ s.pt.dir = .read ∧ o.inSpace = 0 ∧ t = s.record (.usbInReady false))
      ∨ (0 < s.pt.remaining ∧ s.pt.dir = .write ∧ o.outChunk = [] ∧ t = s.record (.usbOutReady false))
      ∨ (0 < s.pt.remaining ∧ s.pt.dir = .read ∧ 0 < o.inSpace
          ∧ ∃ es is' v, ReadRun s.is s.pt.remaining o.inSpace es is' ∧ v.turns = s.env.turns
            ∧ (min s.pt.remaining o.inSpace ≤ s.env.recvs.length →
                s.env.recvs = (receivedBytes es).map Prod.snd ++ v.recvs)
            ∧ PassEnd (movedState o.inSpace (.usbInReady true :: es) is' v s) t)
      ∨ (0 < s.pt.remaining ∧ s.pt.dir = .write ∧ o.outChunk ≠ []
          ∧ ∃ es is' v, WriteRun s.is s.pt.remaining o.outChunk es is' ∧ v.turns = s.env.turns
            ∧ (min s.pt.remaining o.outChunk.length ≤ s.env.sends.length →
                s.env.sends = (sentBytes es).map Prod.snd ++ v.sends)
            ∧ PassEnd (movedState o.outChunk.length (.usbOutReady true :: es) is' v s) t) := by
  unfold pump at h
  split at h <;> rename_i h0
  · cases h; exact .inl ⟨h0, rfl⟩
  have hp : 0 < s.pt.remaining := by omega
  refine .inr ?_
  split at h <;> rename_i hd
  · unfold readOffer at h
    split at h <;> rename_i hs
    · cases h; exact .inl ⟨hp, hd, hs, by simp [hs]⟩
    · have hs' : 0 < o.inSpace := by omega
      obtain ⟨u, hu, hk⟩ := andThen_eq_next.mp h
      obtain ⟨es, is', v, hrun, rfl, hv, hscript⟩ := readPass_next hu
      refine .inr (.inr (.inl ⟨hp, hd, hs', es, is', v, by simpa using hrun, by simpa using hv,
        by simpa using hscript, ?_⟩))
      have := endPass_passEnd hk
      simpa [movedState, State.record, hs'] using this
  · unfold writeOffer at h
    split at h <;> rename_i hs
    · cases h; exact .inr (.inl ⟨hp, hd, hs, by simp [hs]⟩)
    · have hs' : 0 < o.outChunk.length := List.length_pos_iff.mpr hs
      obtain ⟨u, hu, hk⟩ := andThen_eq_next.mp h
      obtain ⟨es, is', v, hrun, rfl, hv, hscript⟩ := writePass_next hu
      refine .inr (.inr (.inr ⟨hp, hd, hs, es, is', v, by simpa using hrun, by simpa using hv,
        by simpa using hscript, ?_⟩))
      have := endPass_passEnd hk
      simpa [movedState, State.record, hs'] using this

end Sys2Proof.Machine
end

