-- ==== Sys2Proof/Laws/Pass.lean ====
section
/-! SUPPORT. The facts that hold of every run of the two byte loops, and of the end of a pass. -/

namespace Sys2Proof.Machine

@[simp] theorem putBytes_append (a b : List Event) : putBytes (a ++ b) = putBytes a ++ putBytes b :=
  List.filterMap_append ..
@[simp] theorem takenBytes_append (a b : List Event) : takenBytes (a ++ b) = takenBytes a ++ takenBytes b :=
  List.filterMap_append ..
@[simp] theorem sentBytes_append (a b : List Event) : sentBytes (a ++ b) = sentBytes a ++ sentBytes b :=
  List.filterMap_append ..
@[simp] theorem receivedBytes_append (a b : List Event) : receivedBytes (a ++ b) = receivedBytes a ++ receivedBytes b :=
  List.filterMap_append ..

/-- What holds of every run of the read loop (R62, R162 to R165). -/
structure ReadFacts (is : InternalStatus) (r n : Nat) (es : List Event) (is' : InternalStatus) : Prop where
  putLen : (putBytes es).length = min r n
  recvLen : (receivedBytes es).length ≤ min r n
  put : putBytes es = (receivedBytes es).map (fun x => deliveredByte x.2)
    ++ List.replicate (min r n - (receivedBytes es).length) 0xFF
  notRunning : is ≠ .running → receivedBytes es = []
  allRun : is = .running → (∀ x ∈ receivedBytes es, x.2 ≠ .fail) → (receivedBytes es).length = min r n
  tags : ∀ (k : Nat) (l : Bool) (a : RecvAnswer), (receivedBytes es)[k]? = some (l, a) → (l = true ↔ k + 1 = r)
  firstFail : ∀ (k : Nat) (l : Bool), (receivedBytes es)[k]? = some (l, .fail) → k + 1 = (receivedBytes es).length
  failed : (∃ x ∈ receivedBytes es, x.2 = .fail) → is' = .readFailed
  noFail : (∀ x ∈ receivedBytes es, x.2 ≠ .fail) → is' = is
  taken : takenBytes es = []
  sent : sentBytes es = []
  kinds : ∀ e ∈ es, (∃ n, e = .usbInSpace n) ∨ (∃ b, e = .usbPut b) ∨ (∃ l a, e = .busRecv l a)

theorem ReadRun.facts {is : InternalStatus} {r n : Nat} {es : List Event} {is' : InternalStatus}
    (h : ReadRun is r n es is') : ReadFacts is r n es is' := by
  induction h with
  | done is n => constructor <;> simp [putBytes, receivedBytes, takenBytes, sentBytes]
  | full is r => constructor <;> simp [putBytes, receivedBytes, takenBytes, sentBytes]
  | byteOk b r n es is' h ih =>
    have e1 : putBytes (.usbInSpace (n + 1) :: .busRecv (decide (r = 0)) (.ok b) :: .usbPut b :: es) = b :: putBytes es := rfl
    have e2 : receivedBytes (.usbInSpace (n + 1) :: .busRecv (decide (r = 0)) (.ok b) :: .usbPut b :: es) = (decide (r=0), .ok b) :: receivedBytes es := rfl
    constructor
    · rw [e1]; simp [ih.putLen]
    · rw [e2]; have := ih.recvLen; simpa using this
    · rw [e1, e2, ih.put]; simp [deliveredByte]
    · intro h; exact absurd rfl h
    · rw [e2]; intro _ h2; simp at h2; simp; rw [ih.allRun rfl (by simpa using h2)]
    · rw [e2]; intro k l a hk
      cases k with
      | zero => simp at hk; obtain ⟨rfl, rfl⟩ := hk; simp
      | succ k => simp at hk; rw [ih.tags k l a hk]; omega
    · rw [e2]; intro k l hk
      cases k with
      | zero => simp at hk
      | succ k => simp at hk; have := ih.firstFail k l hk; simp; omega
    · rw [e2]; intro h; apply ih.failed; simpa using h
    · rw [e2]; intro h; apply ih.noFail; simp at h; simpa using h
    · exact ih.taken
    · exact ih.sent
    · intro e he; simp only [List.mem_cons] at he; rcases he with rfl | rfl | rfl | he <;> first | exact ih.kinds _ he | simp
  | byteFail r n es is' h ih =>
    have e1 : putBytes (.usbInSpace (n + 1) :: .busRecv (decide (r = 0)) .fail :: .usbPut 0xFF :: es) = 0xFF :: putBytes es := rfl
    have e2 : receivedBytes (.usbInSpace (n + 1) :: .busRecv (decide (r = 0)) .fail :: .usbPut 0xFF :: es) = (decide (r=0), .fail) :: receivedBytes es := rfl
    have hn := ih.notRunning (by simp)
    rw [hn] at e2
    have hp := ih.put
    rw [hn] at hp
    constructor
    · rw [e1]; simp [ih.putLen]
    · rw [e2]; simp
    · rw [e1, e2, hp]; simp [deliveredByte]
    · intro h; exact absurd rfl h
    · rw [e2]; intro _ h2; simp at h2
    · rw [e2]; intro k l a hk
      cases k with
      | zero => simp at hk; obtain ⟨rfl, rfl⟩ := hk; simp
      | succ k => simp at hk
    · rw [e2]; intro k l hk
      cases k with
      | zero => simp
      | succ k => simp at hk
    · intro h; exact ih.noFail (by rw [hn]; simp)
    · rw [e2]; simp
    · exact ih.taken
    · exact ih.sent
    · intro e he; simp only [List.mem_cons] at he; rcases he with rfl | rfl | rfl | he <;> first | exact ih.kinds _ he | simp
  | filler is r n es is' hi h ih =>
    have e1 : putBytes (.usbInSpace (n + 1) :: .usbPut 0xFF :: es) = 0xFF :: putBytes es := rfl
    have e2 : receivedBytes (.usbInSpace (n + 1) :: .usbPut 0xFF :: es) = receivedBytes es := rfl
    have hn := ih.notRunning hi
    rw [hn] at e2
    have hp := ih.put
    rw [hn] at hp
    constructor
    · rw [e1]; simp [ih.putLen]
    · rw [e2]; simp
    · rw [e1, e2, hp]; simp [← List.replicate_succ]
    · intro _; exact e2
    · intro h; exact absurd h hi
    · rw [e2]; simp
    · rw [e2]; simp
    · rw [e2]; simp
    · intro h; exact ih.noFail (by rw [hn]; simp)
    · exact ih.taken
    · exact ih.sent
    · simpa using ih.kinds

/-- What holds of every run of the write loop (R62, R166 to R168). -/
structure WriteFacts (is : InternalStatus) (r : Nat) (bs : List Byte) (es : List Event) (is' : InternalStatus) : Prop where
  takenEq : takenBytes es = bs.take r
  sentPre : (sentBytes es).map Prod.fst = (takenBytes es).take (sentBytes es).length
  notRunning : is ≠ .running → sentBytes es = []
  allRun : is = .running → (∀ x ∈ sentBytes es, x.2 ≠ .fail) → (sentBytes es).length = (takenBytes es).length
  firstFail : ∀ (k : Nat) (b : Byte), (sentBytes es)[k]? = some (b, .fail) → k + 1 = (sentBytes es).length
  failed : (∃ x ∈ sentBytes es, x.2 = .fail) → is' = .writeFailed
  noFail : (∀ x ∈ sentBytes es, x.2 ≠ .fail) → is' = is
  put : putBytes es = []
  recv : receivedBytes es = []
  kinds : ∀ e ∈ es, (∃ n, e = .usbOutAvail n) ∨ (∃ b, e = .usbTake b) ∨ (∃ l a, e = .busSend l a)

theorem WriteRun.facts {is : InternalStatus} {r : Nat} {n : List Byte} {es : List Event} {is' : InternalStatus}
    (h : WriteRun is r n es is') : WriteFacts is r n es is' := by
  induction h with
  | done is n => constructor <;> simp [putBytes, receivedBytes, takenBytes, sentBytes]
  | empty is r => constructor <;> simp [putBytes, receivedBytes, takenBytes, sentBytes]
  | byteOk b bs r es is' h ih =>
    have e1 : takenBytes (.usbOutAvail (bs.length + 1) :: .usbTake b :: .busSend b .ok :: es) = b :: takenBytes es := rfl
    have e2 : sentBytes (.usbOutAvail (bs.length + 1) :: .usbTake b :: .busSend b .ok :: es) = (b, .ok) :: sentBytes es := rfl
    constructor
    · rw [e1]; simp [ih.takenEq]
    · rw [e1, e2]; simp [ih.sentPre]
    · intro h; exact absurd rfl h
    · rw [e1, e2]; intro _ h2; simp at h2; simp; rw [ih.allRun rfl (by simpa using h2)]
    · rw [e2]; intro k l hk
      cases k with
      | zero => simp at hk
      | succ k => simp at hk; have := ih.firstFail k l hk; simp; omega
    · rw [e2]; intro h; apply ih.failed; simpa using h
    · rw [e2]; intro h; apply ih.noFail; simp at h; simpa using h
    · exact ih.put
    · exact ih.recv
    · simpa using ih.kinds
  | byteFail b bs r es is' h ih =>
    have e1 : takenBytes (.usbOutAvail (bs.length + 1) :: .usbTake b :: .busSend b .fail :: es) = b :: takenBytes es := rfl
    have e2 : sentBytes (.usbOutAvail (bs.length + 1) :: .usbTake b :: .busSend b .fail :: es) = (b, .fail) :: sentBytes es := rfl
    have hn := ih.notRunning (by simp)
    rw [hn] at e2
    constructor
    · rw [e1]; simp [ih.takenEq]
    · rw [e1, e2]; simp
    · intro h; exact absurd rfl h
    · rw [e2]; intro _ h2; simp at h2
    · rw [e2]; intro k l hk
      cases k with
      | zero => simp
      | succ k => simp at hk
    · intro h; exact ih.noFail (by rw [hn]; simp)
    · rw [e2]; simp
    · exact ih.put
    · exact ih.recv
    · simpa using ih.kinds
  | discard is b bs r es is' hi h ih =>
    have e1 : takenBytes (.usbOutAvail (bs.length + 1) :: .usbTake b :: es) = b :: takenBytes es := rfl
    have e2 : sentBytes (.usbOutAvail (bs.length + 1) :: .usbTake b :: es) = sentBytes es := rfl
    have hn := ih.notRunning hi
    rw [hn] at e2
    constructor
    · rw [e1]; simp [ih.takenEq]
    · rw [e2]; simp
    · intro _; exact e2
    · intro h; exact absurd h hi
    · rw [e2]; simp
    · rw [e2]; simp
    · intro h; exact ih.noFail (by rw [hn]; simp)
    · exact ih.put
    · exact ih.recv
    · simpa using ih.kinds

/-- What a run does to the status: only a running bus can fail, and a failure keeps the bus held (R33, R164, R168). -/
structure StatusOk (is is' : InternalStatus) : Prop where
  held : heldStatus is' = heldStatus is
  eq : is ≠ .running → is' = is
  run : is = .running → is' = .running ∨ is' = .readFailed ∨ is' = .writeFailed

theorem ReadFacts.status {is : InternalStatus} {r n : Nat} {es : List Event} {is' : InternalStatus}
    (f : ReadFacts is r n es is') : StatusOk is is' := by
  have hdec : (∃ x ∈ receivedBytes es, x.2 = .fail) ∨ (∀ x ∈ receivedBytes es, x.2 ≠ .fail) := by
    by_cases h : ∃ x ∈ receivedBytes es, x.2 = .fail
    · exact .inl h
    · exact .inr (fun x hx hf => h ⟨x, hx, hf⟩)
  rcases hdec with h | h
  · have h1 := f.failed h
    have h2 : is = .running := by
      by_cases hr : is = .running
      · exact hr
      · rw [f.notRunning hr] at h; obtain ⟨x, hx, -⟩ := h; cases hx
    subst h1 h2
    constructor <;> simp [heldStatus]
  · have := f.noFail h; subst this
    exact ⟨rfl, fun _ => rfl, fun h => .inl h⟩
theorem WriteFacts.status {is : InternalStatus} {r : Nat} {n : List Byte} {es : List Event} {is' : InternalStatus}
    (f : WriteFacts is r n es is') : StatusOk is is' := by
  have hdec : (∃ x ∈ sentBytes es, x.2 = .fail) ∨ (∀ x ∈ sentBytes es, x.2 ≠ .fail) := by
    by_cases h : ∃ x ∈ sentBytes es, x.2 = .fail
    · exact .inl h
    · exact .inr (fun x hx hf => h ⟨x, hx, hf⟩)
  rcases hdec with h | h
  · have h1 := f.failed h
    have h2 : is = .running := by
      by_cases hr : is = .running
      · exact hr
      · rw [f.notRunning hr] at h; obtain ⟨x, hx, -⟩ := h; cases hx
    subst h1 h2
    constructor <;> simp [heldStatus]
  · have := f.noFail h; subst this
    exact ⟨rfl, fun _ => rfl, fun h => .inl h⟩

/-- What the end of a moving pass appends to the trace (R169, R170). -/
theorem passEnd_trace {u t : State} (h : PassEnd u t) :
    ∃ ending, t.trace = u.trace ++ [.usbChunkComplete] ++ ending ∧
   (∀ e ∈ ending, e = .busStop ∨ e = .usbStatusStage) ∧ (0 < t.pt.remaining → ending = []) ∧
   putBytes ending = [] ∧ takenBytes ending = [] ∧ sentBytes ending = [] ∧ receivedBytes ending = [] := by
  cases h with
  | more h => exact ⟨[], by simp, by simp, by simp, rfl, rfl, rfl, rfl⟩
  | last h v hv =>
    refine ⟨(if u.pt.deferStop ∧ u.is ≠ .idle then [.busStop] else []) ++ (if u.pt.dir = .write then [.usbStatusStage] else []), ?_, ?_, ?_, ?_, ?_, ?_, ?_⟩
    · simp [completedState]; rfl
    · intro e; split <;> split <;> simp <;> intro h <;> simp [h]
    · simp [completedState]
    all_goals split <;> split <;> rfl

end Sys2Proof.Machine
end

