-- ==== Sys2Proof/Laws/PerInstr.lean ====
section
/-! SUPPORT. Statements made for all commands, one lemma per constructor of `Instr`. -/

namespace Sys2Proof.Laws.EncodeFields

/-- The packet that carries a command has the command's opcode and its operand fields, with every bit of each (R90,
R91, R93). -/
def Statement (i : Instr) : Prop := (encode i).bRequest = i.opcode ∧ (encode i).fields = i.fields

theorem of_packetOf (i : Instr) : Statement i := ⟨rfl, packetOf_fields i.opcode i.fields⟩

theorem echo (f : Fields) : Statement (.echo f) := of_packetOf _

theorem getCapabilities (f : Fields) : Statement (.getCapabilities f) := of_packetOf _

theorem setDelay (f : Fields) : Statement (.setDelay f) := of_packetOf _

theorem getStatus (f : Fields) : Statement (.getStatus f) := of_packetOf _

theorem performIo (f : Fields) : Statement (.performIo f) := of_packetOf _

theorem performIoBegin (f : Fields) : Statement (.performIoBegin f) := of_packetOf _

theorem performIoEnd (f : Fields) : Statement (.performIoEnd f) := of_packetOf _

theorem performIoBeginEnd (f : Fields) : Statement (.performIoBeginEnd f) := of_packetOf _

end Sys2Proof.Laws.EncodeFields
end

