-- ==== Sys2Proof/Laws/Step.lean ====
section
/-! SUPPORT. What a step is and what it can do: the environment's move it takes, everything a Dispatcher step can have
done, and that the operations answer when every bus primitive returns. -/

namespace Sys2Proof.Machine

theorem takeTurn_turns (s : State) : (takeTurn s).2.env.turns = s.env.turns.tail := by
  unfold takeTurn; split <;> rename_i h <;> simp [h, Env.nextDraw]

/-- A step is a Dispatcher step or a scheduler pass, after the environment's move (R70). -/
theorem step_cases (s : State) :
    (∃ req v, takeTurn s = (.request req, s.writeEnv v) ∧ step s = dispatch req (s.writeEnv v)
        ∧ v.busLimit = s.env.busLimit)
      ∨ (∃ o v, takeTurn s = (.pass o, s.writeEnv v) ∧ step s = pump o (s.writeEnv v)
        ∧ v.busLimit = s.env.busLimit) := by
  obtain ⟨h1, h2⟩ := takeTurn_eq s
  rcases h : takeTurn s with ⟨turn, u⟩
  rw [h] at h1 h2
  cases turn with
  | request req => exact .inl ⟨req, u.env, by rw [← h1], by rw [← h1]; simp [step, h], h2⟩
  | pass o => exact .inr ⟨o, u.env, by rw [← h1], by rw [← h1]; simp [step, h], h2⟩

/-- Everything a Dispatcher step can have done when it answers a next state (R190). -/
theorem dispatch_next {req : Request} {s t : State} (h : dispatch req s = .next t) :
    (∃ bytes, t = (deliver req s).record (.usbReply bytes))
      ∨ (∃ r, t = (deliver req s).record (.unanswered r))
      ∨ (∃ c v, req.packet.bRequest = 0x02 ∧ computeClock req.packet.wValue.toInt = some c
          ∧ v.turns = s.env.turns ∧ t = clockedState c v (deliver req s))
      ∨ (s.pt.remaining = 0 ∧ s.ts ≠ .unconfigured
          ∧ 4 ≤ req.packet.bRequest.toNat ∧ req.packet.bRequest.toNat ≤ 7
          ∧ ∃ p v, v.turns = s.env.turns
            ∧ (t = ioAcked p v (deliver req s) ∨ t = ioNaked p v (deliver req s))) := by
  unfold dispatch at h
  split at h
  · rename_i i hd
    obtain ⟨hop, hf⟩ : i.opcode = req.packet.bRequest ∧ i.fields = req.packet.fields := by
      rcases decode_cases req.packet with ⟨j, hj, ho⟩ | ⟨hj, -⟩
      · rw [hj] at hd; cases hd; exact ho
      · rw [hj] at hd; cases hd
    rcases exec_next h with ⟨-, b, rfl⟩ | rfl | ⟨f, c, v, rfl, hc, hv, rfl⟩ | ⟨h0, hu, b, e, f, v, rfl, hv, ht⟩
    · exact .inl ⟨b, rfl⟩
    · exact .inr (.inl ⟨_, rfl⟩)
    · have hw : f.wValue = req.packet.wValue := congrArg Fields.wValue hf
      exact .inr (.inr (.inl ⟨c, v, hop.symm, hw ▸ hc, hv, rfl⟩))
    · refine .inr (.inr (.inr ⟨h0, hu, ?_, ?_, _, v, hv, ht⟩))
      · rw [← hop]; cases b <;> cases e <;> simp [Instr.performIoOf, Instr.opcode]
      · rw [← hop]; cases b <;> cases e <;> simp [Instr.performIoOf, Instr.opcode]
  · obtain ⟨-, h⟩ := admitted_next h
    cases h
    exact .inr (.inl ⟨_, rfl⟩)

/-! ## What answers when every bus primitive returns -/

theorem busRecv_returns {l : Bool} {s : State} (h : s.env.busLimit = none) :
    ∃ a t, busRecv l s = .next (a, t) ∧ t.env.busLimit = none := by
  simp only [busRecv, busCall_unlimited _ h, andThen_next]
  refine ⟨_, _, rfl, ?_⟩
  simp [(takeRecv_eq s).2.2.1, h]

theorem busSend_returns {b : Byte} {s : State} (h : s.env.busLimit = none) :
    ∃ a t, busSend b s = .next (a, t) ∧ t.env.busLimit = none := by
  simp only [busSend, busCall_unlimited _ h, andThen_next]
  refine ⟨_, _, rfl, ?_⟩
  simp [(takeSend_eq s).2.2.1, h]

theorem stop_returns {s : State} (h : s.env.busLimit = none) : ∃ t, stop s = .next t ∧ t.env.busLimit = none := by
  by_cases hi : s.is = .idle
  · exact ⟨s, stop_idle hi, h⟩
  · exact ⟨_, stop_unlimited h hi, h⟩

theorem receiveOrFill_returns {s : State} (h : s.env.busLimit = none) :
    ∃ t, receiveOrFill s = .next t ∧ t.env.busLimit = none := by
  unfold receiveOrFill
  split
  · obtain ⟨a, t, ht, hl⟩ := busRecv_returns (l := decide (s.pt.remaining = 0)) h
    rw [ht]; simp only [andThen_next]
    cases a <;> exact ⟨_, rfl, hl⟩
  · exact ⟨_, rfl, h⟩

theorem sendOrDiscard_returns {b : Byte} {s : State} (h : s.env.busLimit = none) :
    ∃ t, sendOrDiscard b s = .next t ∧ t.env.busLimit = none := by
  unfold sendOrDiscard
  split
  · obtain ⟨a, t, ht, hl⟩ := busSend_returns (b := b) h
    rw [ht]; simp only [andThen_next]
    cases a <;> exact ⟨_, rfl, hl⟩
  · exact ⟨_, rfl, h⟩

theorem readPass_returns : ∀ (n : Nat) {s : State}, s.env.busLimit = none →
    ∃ t, readPass n s = .next t ∧ t.env.busLimit = none := by
  intro n
  induction n with
  | zero => intro s h; unfold readPass; split <;> exact ⟨_, rfl, h⟩
  | succ n ih =>
    intro s h; unfold readPass; split
    · exact ⟨_, rfl, h⟩
    · obtain ⟨t, ht, hl⟩ := receiveOrFill_returns (s := (s.record (.usbInSpace (n+1))).countDown) h
      rw [show readByte _ = _ from ht, andThen_next]; exact ih hl

theorem writePass_returns : ∀ (bs : List Byte) {s : State}, s.env.busLimit = none →
    ∃ t, writePass bs s = .next t ∧ t.env.busLimit = none := by
  intro bs
  induction bs with
  | nil => intro s h; unfold writePass; split <;> exact ⟨_, rfl, h⟩
  | cons b bs ih =>
    intro s h; unfold writePass; split
    · exact ⟨_, rfl, h⟩
    · obtain ⟨t, ht, hl⟩ := sendOrDiscard_returns (b := b) (s := (s.record (.usbOutAvail (bs.length+1))).countDown.record (.usbTake b)) h
      rw [show writeByte _ _ = _ from ht, andThen_next]; exact ih hl

/-! ## What any operation can stop with -/

/-- The operation answers, or a bus primitive never returns in it: no other fault and no refusal. -/
def AnswersOrSticks {α : Type} (r : Result α) : Prop :=
  (∃ t, r = .next t) ∨ ∃ p, r = .fault (.busNeverReturns p)

theorem AnswersOrSticks.next {α : Type} (a : α) : AnswersOrSticks (.next a : Result α) := .inl ⟨a, rfl⟩

theorem AnswersOrSticks.andThen {α β : Type} {r : Result α} {k : α → Result β} (h : AnswersOrSticks r)
    (hk : ∀ a, AnswersOrSticks (k a)) : AnswersOrSticks (andThen r k) := by
  rcases h with ⟨t, rfl⟩ | ⟨p, rfl⟩
  · exact hk t
  · exact .inr ⟨p, rfl⟩

theorem busCall_answersOrSticks (p : BusPrimitive) (s : State) : AnswersOrSticks (busCall p s) := by
  unfold busCall; split
  · exact .next _
  · exact .inr ⟨_, rfl⟩
  · exact .next _

theorem stop_answersOrSticks (s : State) : AnswersOrSticks (stop s) := by
  unfold stop; split
  · exact .next _
  · exact ((busCall_answersOrSticks _ _).andThen fun _ => .next _).andThen fun _ => .next _

theorem start_answersOrSticks (a : Byte) (s : State) : AnswersOrSticks (start a s) := by
  unfold start
  refine ((busCall_answersOrSticks _ _).andThen fun _ => .next _).andThen fun r => ?_
  split
  · exact .next _
  · exact (stop_answersOrSticks _).andThen fun _ => .next _

theorem busReset_answersOrSticks (s : State) : AnswersOrSticks (busReset s) := by
  unfold busReset
  refine AnswersOrSticks.andThen ?_ fun _ => .next _
  split
  · exact stop_answersOrSticks _
  · exact .next _

theorem applyClock_answersOrSticks (c : ClockConfig) (s : State) : AnswersOrSticks (applyClock c s) := by
  unfold applyClock
  exact (busReset_answersOrSticks s).andThen fun _ => ((busCall_answersOrSticks _ _).andThen fun _ => .next _).andThen fun _ => .next _

theorem performIo_answersOrSticks (r : Request) (s : State) : AnswersOrSticks (performIo r s) := by
  unfold performIo; split
  · exact .next _
  · refine (start_answersOrSticks _ _).andThen fun r => AnswersOrSticks.andThen ?_ fun _ => AnswersOrSticks.andThen ?_ fun _ => .next _
    · split; exact .next _; exact stop_answersOrSticks _
    · split; exact stop_answersOrSticks _; exact .next _

theorem receiveOrFill_answersOrSticks (s : State) : AnswersOrSticks (receiveOrFill s) := by
  unfold receiveOrFill; split
  · refine ((busCall_answersOrSticks _ _).andThen fun _ => .next _).andThen fun r => ?_
    split <;> exact .next _
  · exact .next _

theorem sendOrDiscard_answersOrSticks (b : Byte) (s : State) : AnswersOrSticks (sendOrDiscard b s) := by
  unfold sendOrDiscard; split
  · refine ((busCall_answersOrSticks _ _).andThen fun _ => .next _).andThen fun r => ?_
    split <;> exact .next _
  · exact .next _

theorem readPass_answersOrSticks (n : Nat) : ∀ s, AnswersOrSticks (readPass n s) := by
  induction n with
  | zero => intro s; unfold readPass; split <;> exact .next _
  | succ n ih => intro s; unfold readPass; split; exact .next _; exact (receiveOrFill_answersOrSticks _).andThen ih

theorem writePass_answersOrSticks (bs : List Byte) : ∀ s, AnswersOrSticks (writePass bs s) := by
  induction bs with
  | nil => intro s; unfold writePass; split <;> exact .next _
  | cons b bs ih => intro s; unfold writePass; split; exact .next _; exact (sendOrDiscard_answersOrSticks _ _).andThen ih

theorem endPass_answersOrSticks (s : State) : AnswersOrSticks (endPass s) := by
  unfold endPass completeIfDone; split
  · unfold complete
    refine AnswersOrSticks.andThen ?_ fun _ => .next _
    split; exact stop_answersOrSticks _; exact .next _
  · exact .next _

theorem pump_answersOrSticks (o : Offer) (s : State) : AnswersOrSticks (pump o s) := by
  unfold pump; split; exact .next _
  split
  · unfold readOffer; split; exact .next _; exact (readPass_answersOrSticks _ _).andThen endPass_answersOrSticks
  · unfold writeOffer; split; exact .next _; exact (writePass_answersOrSticks _ _).andThen endPass_answersOrSticks

end Sys2Proof.Machine
end

