-- ==== Sys2Proof/Tests/Slice0.lean ====
section
/-! SUPPORT. Small tests, each from a vector of spec/95_test_vectors.md or a rule's own example, and the witnesses that
the hypotheses of the obligations can be met. -/

namespace Sys2Proof.Tests

open Sys2Proof.Machine

/-! ## Helpers -/

/-- The clock (4, 198) of premise K. -/
def clockK : ClockConfig := ⟨.t4, 198⟩

/-- A state with the given elements, an empty trace and the given script of the environment. -/
def mk (ts : TransactionStatus) (is : InternalStatus) (pt : PendingTransfer) (env : Env := State.reset.env) : State :=
  { State.reset with
    ts := ts
    is := is
    pt := pt
    cc := some clockK
    clockReg := clockK
    env := env }

/-- `⟨Idle, Idle, empty, (4,198)⟩` with the driver's next answers to a START. -/
def idleWith (starts : List StartAnswer) : State := mk .idle .idle .empty { State.reset.env with starts := starts }

/-- A transfer in flight with the driver's next answers. -/
def moving (is : InternalStatus) (pt : PendingTransfer) (recvs : List RecvAnswer) (sends : List SendAnswer) : State :=
  mk .addressAcked is pt { State.reset.env with recvs := recvs, sends := sends }

/-- The events of a step from an empty trace, without the readiness queries. -/
def events : Result State → List Event
  | .next t => observed t.trace
  | .fault _ => []
  | .refused _ => []

/-- The elements of the block's state after a step. -/
def left : Result State → Option (TransactionStatus × InternalStatus × PendingTransfer × Option ClockConfig)
  | .next t => some (t.ts, t.is, t.pt, t.cc)
  | .fault _ => none
  | .refused _ => none

/-- The fault of a step. -/
def faultOf : Result State → Option Fault
  | .next _ => none
  | .fault f => some f
  | .refused _ => none

/-- A formula of the table of L2.2: its four values. -/
def tableFormula (a b c d : Int) : Tier → Int → Int
  | .t1, _ => a
  | .t4, _ => b
  | .t16, _ => c
  | .t64, _ => d

/-- The fields of a request with the request type of the notation of R103. -/
def ioFields (wValue wIndex wLength : Word16) : Fields := ⟨0x41, wValue, wIndex, wLength⟩

/-! ## WellFormed refuses each ill-formed term (R193, R209, R267) -/

theorem test_wellFormed_refuses_delay_with_data_stage : (Instr.setDelay ⟨0x41, 100, 0, 1⟩).wellFormed = false := by decide
theorem test_wellFormed_refuses_delay_zero : (Instr.setDelay ⟨0x41, 0, 0, 0⟩).wellFormed = false := by decide
theorem test_wellFormed_refuses_delay_0x8000 : (Instr.setDelay ⟨0x41, 0x8000, 0, 0⟩).wellFormed = false := by decide
theorem test_wellFormed_accepts_delay_0x7FFF : (Instr.setDelay ⟨0x41, 0x7FFF, 0, 0⟩).wellFormed = true := by decide

/-! ## Decoding, from words written out in spec/95_test_vectors.md -/

theorem test_decode_echo :
    decodeBytes [0xC1, 0x00, 0xCD, 0xAB, 0x00, 0x00, 0x02, 0x00] = .ok (.echo ⟨0xC1, 0xABCD, 0, 2⟩) := rfl
theorem test_decode_getCapabilities :
    decodeBytes [0xC1, 0x01, 0x00, 0x00, 0x00, 0x00, 0x04, 0x00] = .ok (.getCapabilities ⟨0xC1, 0, 0, 4⟩) := rfl
theorem test_decode_setDelay :
    decodeBytes [0x41, 0x02, 0xD0, 0x07, 0x00, 0x00, 0x00, 0x00] = .ok (.setDelay ⟨0x41, 2000, 0, 0⟩) := rfl
theorem test_decode_getStatus :
    decodeBytes [0xC1, 0x03, 0x00, 0x00, 0x00, 0x00, 0x01, 0x00] = .ok (.getStatus ⟨0xC1, 0, 0, 1⟩) := rfl
theorem test_decode_performIo :
    decodeBytes [0xC1, 0x04, 0x01, 0x00, 0x50, 0x00, 0x04, 0x00] = .ok (.performIo ⟨0xC1, 1, 0x50, 4⟩) := rfl
theorem test_decode_performIoBegin :
    decodeBytes [0x41, 0x05, 0x00, 0x00, 0x50, 0x00, 0x01, 0x00] = .ok (.performIoBegin ⟨0x41, 0, 0x50, 1⟩) := rfl
theorem test_decode_performIoEnd :
    decodeBytes [0xC1, 0x06, 0x01, 0x00, 0x50, 0x00, 0x02, 0x00] = .ok (.performIoEnd ⟨0xC1, 1, 0x50, 2⟩) := rfl
theorem test_decode_performIoBeginEnd :
    decodeBytes [0xC1, 0x07, 0x01, 0x00, 0x68, 0x00, 0x0A, 0x00] = .ok (.performIoBeginEnd ⟨0xC1, 1, 0x68, 10⟩) := rfl
theorem test_decode_unknown_0x08 :
    decodeBytes [0xC1, 0x08, 0x00, 0x00, 0x00, 0x00, 0x00, 0x00] = .error (.unknownOpcode 0x08) := rfl
theorem test_decode_unknown_0xFF :
    decodeBytes [0xC1, 0xFF, 0x00, 0x00, 0x00, 0x00, 0x00, 0x00] = .error (.unknownOpcode 0xFF) := rfl

/-- The operand rows of L2.1: the wire address and the direction. -/
theorem test_operands_of_L2_1 :
    addr8 (packetOf 0x04 (ioFields 0x0000 0x0050 1)) = 0xA0
    ∧ addr8 (packetOf 0x07 (ioFields 0x0001 0x007F 1)) = 0xFF
    ∧ addr8 (packetOf 0x07 (ioFields 0x0001 0x00D0 1)) = 0xA1
    ∧ addr8 (packetOf 0x07 (ioFields 0xFFFE 0xFF00 1)) = 0x00
    ∧ dirOf (packetOf 0x07 (ioFields 0xFFFE 0xFF00 1)) = .write
    ∧ addr8 (packetOf 0x07 (ioFields 0x8001 0x0000 1)) = 0x01
    ∧ dirOf (packetOf 0x07 (ioFields 0x8001 0x0000 1)) = .read := by decide

/-- The opcode table's words: match 0x07 under mask 0xFF, operand words of zeros; 0x08 is no row. -/
theorem test_tableWord : decodeTableWord 8 0x07 = some (.performIoBeginEnd ⟨0, 0, 0, 0⟩)
    ∧ decodeTableWord 8 0x08 = none ∧ decodeTableWord 24 0x006402 = some (.setDelay ⟨0, 100, 0, 0⟩) := by decide

/-- A placed word is what the next step runs. -/
theorem test_withFetchWord : events (step (State.reset.withFetchWord 24 0x123400))
    = [.onControlRequest ⟨encode (.echo ⟨0, 0x1234, 0, 0⟩), .write⟩, .usbReply [0x34, 0x12]] := by decide

/-! ## The Clock Configurator (L1.1, L2.2) -/

theorem test_targetFrequency : targetFrequency 1 = 1000000 ∧ targetFrequency 3 = 333333 ∧ targetFrequency 7 = 142857
    ∧ targetFrequency 3000 = 333 ∧ targetFrequency 32767 = 30 := by decide
theorem test_firstTier_accepted : computeClockWith (tableFormula 792 198 49 12) 100 = some ⟨.t4, 198⟩
    ∧ computeClockWith (tableFormula 255 63 15 3) 100 = some ⟨.t1, 255⟩
    ∧ computeClockWith (tableFormula 256 64 16 4) 100 = some ⟨.t4, 64⟩
    ∧ computeClockWith (tableFormula 0 0 0 0) 100 = some ⟨.t1, 0⟩ := by decide
theorem test_firstTier_moves_on : computeClockWith (tableFormula (-1) 0 0 0) 100 = some ⟨.t4, 0⟩
    ∧ computeClockWith (tableFormula 4000 1000 256 255) 100 = some ⟨.t64, 255⟩
    ∧ computeClockWith (tableFormula 4000 1000 256 256) 100 = none
    ∧ computeClockWith (tableFormula (-4) (-1) (-1) (-1)) 100 = none
    ∧ computeClockWith (tableFormula 300 (-5) 10 2) 100 = some ⟨.t16, 10⟩ := by decide

/-! ## The commands (L1, L2.5) -/

theorem test_echo : events (exec (.echo ⟨0xC1, 0xABCD, 0, 2⟩) State.reset) = [.usbReply [0xCD, 0xAB]] := by decide
theorem test_echo_in_flight : faultOf (exec (.echo ⟨0xC1, 0x1234, 0, 2⟩) (moving .running ⟨.read, 6, true⟩ [] []))
    = some (.hostProtocolViolation ⟨⟨0xC1, 0x00, 0x34, 0x12, 0, 0, 2, 0⟩, .write⟩) := by decide
theorem test_getCapabilities : events (exec (.getCapabilities ⟨0xC1, 0, 0, 4⟩) State.reset)
    = [.usbReply (le32 Config.caps)] := rfl
theorem test_le32 : le32 0x0EFF0009 = [0x09, 0x00, 0xFF, 0x0E] := by decide
theorem test_getStatus_power_on : events (exec (.getStatus ⟨0xC1, 0, 0, 1⟩) State.reset) = [.usbReply [0xFF]] := by
  decide
theorem test_getStatus_naked : events (exec (.getStatus ⟨0xC1, 0, 0, 1⟩) (mk .addressNaked .idle .empty))
    = [.usbReply [0x02]] := by decide
theorem test_setDelay_zero : faultOf (exec (.setDelay ⟨0x41, 0, 0, 0⟩) State.reset) = some (.undefinedDelay 0) := by
  decide
/-- L2.5: SET_DELAY 100 with a read of 6 bytes in flight, under the clock of premise K. -/
theorem test_setDelay_discards :
    let r := setDelayWith (some clockK) ⟨encode (.setDelay ⟨0x41, 100, 0, 0⟩), .write⟩
      (moving .running ⟨.read, 6, true⟩ [] [])
    events r = [.busStop, .busSetClock .t4 198, .usbStatusStage]
      ∧ left r = some (.idle, .idle, .empty, some ⟨.t4, 198⟩) := by decide
/-- L2.5: IO W 0x50 [], acknowledged: the bus stays held. -/
theorem test_performIo_empty :
    let r := exec (.performIo (ioFields 0 0x50 0)) (idleWith [.ack])
    events r = [.busStart 0xA0 Config.startTimeout .ack, .usbStatusStage]
      ∧ left r = some (.addressAcked, .running, .empty, some clockK) := ⟨rfl, rfl⟩
/-- L2.5: IO W 0x50 [], not acknowledged. -/
theorem test_performIo_nak :
    let r := exec (.performIo (ioFields 0 0x50 0)) (idleWith [.nak])
    events r = [.busStart 0xA0 Config.startTimeout .nak, .busStop, .usbStatusStage]
      ∧ left r = some (.addressNaked, .idle, .empty, some clockK) := ⟨rfl, rfl⟩
/-- P2, step 1: IO.B W 0x50 [10]. -/
theorem test_performIoBegin_arms : left (exec (.performIoBegin (ioFields 0 0x50 1)) (idleWith [.ack]))
    = some (.addressAcked, .running, ⟨.write, 1, false⟩, some clockK) := rfl
/-- L2.5: IO.E W 0x50 [] stops the bus at once. -/
theorem test_performIoEnd_stops : events (exec (.performIoEnd (ioFields 0 0x50 0)) (idleWith [.ack]))
    = [.busStart 0xA0 Config.startTimeout .ack, .busStop, .usbStatusStage] := rfl
/-- L1.7: before configuration, no reply and no bus event. -/
theorem test_performIoBeginEnd_unconfigured :
    events (exec (.performIoBeginEnd ⟨0xC1, 1, 0x50, 2⟩) { State.reset with dataStage := .read })
      = [.unanswered ⟨⟨0xC1, 0x07, 1, 0, 0x50, 0, 2, 0⟩, .read⟩] := by decide
/-- L1.9, step 1: the address is not acknowledged, and the transfer is armed all the same. -/
theorem test_performIoBeginEnd_nak :
    let r := exec (.performIoBeginEnd (ioFields 0 0x51 1)) (idleWith [.nak])
    events r = [.busStart 0xA2 Config.startTimeout .nak, .busStop]
      ∧ left r = some (.addressNaked, .idle, ⟨.write, 1, true⟩, some clockK) := ⟨rfl, rfl⟩

/-- R10: what a pass offers is at most one chunk, a scripted one too. -/
theorem test_takeTurn_holds_the_bound : (takeTurn { State.reset with
      env := { State.reset.env with turns := [.pass ⟨Config.chunkSize + 1, []⟩] } }).1
    = .pass ⟨Config.chunkSize, []⟩ := by
  simp [takeTurn, Turn.clamp, Offer.clamp]

/-! ## The pump (L1.4, L1.5, L2.4) -/

/-- L1.4: only the last read is tagged, and the stop follows the chunk. -/
theorem test_readPass_tags_last :
    let r := pump ⟨8, []⟩ (moving .running ⟨.read, 3, true⟩ [.ok 0x11, .ok 0x22, .ok 0x33] [])
    events r = [.busRecv false (.ok 0x11), .usbPut 0x11, .busRecv false (.ok 0x22), .usbPut 0x22,
        .busRecv true (.ok 0x33), .usbPut 0x33, .usbChunkComplete, .busStop]
      ∧ left r = some (.addressAcked, .idle, .empty, some clockK) := by decide
/-- L1.5: a read failure fills the rest and does not abort. -/
theorem test_readPass_fills :
    let r := pump ⟨8, []⟩ (moving .running ⟨.read, 4, true⟩ [.ok 0x5A, .fail] [])
    events r = [.busRecv false (.ok 0x5A), .usbPut 0x5A, .busRecv false .fail, .usbPut 0xFF, .usbPut 0xFF,
        .usbPut 0xFF, .usbChunkComplete, .busStop]
      ∧ left r = some (.addressNaked, .idle, .empty, some clockK) := by decide
/-- L1.5: a write failure drains the rest. -/
theorem test_writePass_drains :
    let r := pump ⟨0, [1, 2, 3]⟩ (moving .running ⟨.write, 3, true⟩ [] [.fail])
    events r = [.usbTake 1, .busSend 1 .fail, .usbTake 2, .usbTake 3, .usbChunkComplete, .busStop, .usbStatusStage]
      ∧ left r = some (.addressNaked, .idle, .empty, some clockK) := by decide
/-- L2.4, vector 8: bytes beyond the transfer are not taken. -/
theorem test_writePass_leaves_excess :
    let r := pump ⟨0, [9, 8, 7, 6]⟩ (moving .running ⟨.write, 1, false⟩ [] [.ok])
    events r = [.usbTake 9, .busSend 9 .ok, .usbChunkComplete, .usbStatusStage]
      ∧ left r = some (.addressAcked, .running, .empty, some clockK) := by decide

/-! ## Witnesses: the hypotheses of each obligation are met by a concrete state and operands -/

/-- A state with the given environment's moves to come. -/
def withTurns (turns : List Turn) (s : State) : State := { s with env := { s.env with turns := turns } }

/-- A state whose bus driver returns from no further call. -/
def stuckBus (s : State) : State := { s with env := { s.env with busLimit := some 0 } }

/-- A read of 3 bytes with END, in flight on a running bus. -/
def reading : State := moving .running ⟨.read, 3, true⟩ [.ok 1, .ok 2, .ok 3] []

/-- A write of 3 bytes with END, in flight on a running bus. -/
def writing : State := moving .running ⟨.write, 3, true⟩ [] [.ok, .ok, .ok]

/-- ECHO 0x1234. -/
def echoTurn : Turn := .request (requestEcho 0x1234)

/-- An opcode that is no command, the first one. -/
def unknownRequest : Request := ⟨packetOf 0x08 ⟨0xC1, 0, 0, 0⟩, .read⟩

theorem witness_EncodeInvertsDecode : ∃ bs i, decodeBytes bs = .ok i :=
  ⟨[0xC1, 0x00, 0x34, 0x12, 0x00, 0x00, 0x02, 0x00], _, rfl⟩
theorem witness_OpcodeSelectsCommand :
    (packetOf 0x07 (ioFields 0 0 0)).bRequest.toNat ≤ 7 ∧ 8 ≤ (packetOf 0x08 (ioFields 0 0 0)).bRequest.toNat := by
  decide
theorem witness_StepRunsDecodedCommand : (withTurns [echoTurn] State.reset).env.turns = .request (requestEcho 0x1234) :: []
    ∧ decode (requestEcho 0x1234).packet = .ok (.echo ⟨0xC1, 0x1234, 0, 2⟩) := ⟨rfl, rfl⟩
/-- An offer of one byte is within every chunk size. -/
theorem witness_StepRunsPumpPass : (withTurns [.pass ⟨1, [1]⟩] reading).env.turns = .pass ⟨1, [1]⟩ :: []
    ∧ (1 : Nat) ≤ Config.chunkSize := ⟨rfl, Nat.le_add_left 1 _⟩
theorem witness_EmptyScriptDrawsFreeMove : State.reset.env.turns = [] := rfl
theorem witness_PlacedWordRunsNext : decodeTableWord 8 0x00 = some (.echo ⟨0, 0, 0, 0⟩)
    ∧ decodeTableWord 8 0x07 = some (.performIoBeginEnd ⟨0, 0, 0, 0⟩) := by decide
theorem witness_BusAnswersAreDrawnInOrder : (idleWith [.nak]).env.starts = .nak :: [] ∧ State.reset.env.starts = []
    ∧ writing.env.sends = .ok :: [.ok, .ok] ∧ State.reset.env.sends = []
    ∧ reading.env.recvs = .ok 1 :: [.ok 2, .ok 3] ∧ State.reset.env.recvs = [] := ⟨rfl, rfl, rfl, rfl, rfl, rfl⟩
theorem witness_UnknownOpcodeIsUnanswered :
    (withTurns [.request unknownRequest] State.reset).env.turns = .request unknownRequest :: []
    ∧ 8 ≤ unknownRequest.packet.bRequest.toNat ∧ (withTurns [.request unknownRequest] State.reset).pt.remaining = 0 :=
  ⟨rfl, by decide, rfl⟩
theorem witness_EchoRepliesVerbatim : State.reset.pt.remaining = 0 := rfl
theorem witness_GetCapabilitiesRepliesMask : (mk .idle .idle .empty).pt.remaining = 0 := rfl
theorem witness_GetStatusRepliesCode : (mk .addressAcked .running .empty).pt.remaining = 0
    ∧ (mk .addressNaked .idle .empty).pt.remaining = 0 := ⟨rfl, rfl⟩
theorem witness_NonPositiveDelayFaults : (ioFields 0 0 0).wLength = 0 ∧ (ioFields 0 0 0).wValue = 0
    ∧ (ioFields 0x8000 0 0).wLength = 0 ∧ 0x8000 ≤ (ioFields 0x8000 0 0).wValue.toNat
    ∧ 0x8000 ≤ (ioFields 0xFFFF 0 0).wValue.toNat := by decide
theorem witness_DelayLengthFaultsReplyLengthIgnored : (ioFields 100 0 1).wLength ≠ 0 ∧ State.reset.pt.remaining = 0 := by
  decide
theorem witness_SetDelayCompletes : (ioFields 1 0 0).wLength = 0 ∧ 0 < (ioFields 1 0 0).wValue.toInt
    ∧ 0 < (ioFields 0x7FFF 0 0).wValue.toInt ∧ State.reset.env.busLimit = none ∧ reading.env.busLimit = none := by decide
theorem witness_AppliedClockReplacesAll : State.reset.env.busLimit = none ∧ State.reset.is = .unconfigured
    ∧ reading.env.busLimit = none ∧ reading.is = .running := by decide
theorem witness_ComputeClockPicksSmallestTier : computeClockWith (tableFormula 4000 1000 256 255) 100 = some ⟨.t64, 255⟩
    ∧ Tier.t16.value < Tier.t64.value := by decide
theorem witness_TargetFrequencyBounds : ((1 : Int) ≤ 1 ∧ (1 : Int) ≤ 32767) ∧ ((1 : Int) ≤ 32767 ∧ (32767 : Int) ≤ 32767) := by
  decide
theorem witness_UnconfiguredIoIsUnanswered : State.reset.ts = .unconfigured ∧ State.reset.pt.remaining = 0
    ∧ directionAgrees (ioFields 0 0x50 2) State.reset := ⟨rfl, rfl, .inr rfl⟩
theorem witness_AcknowledgedIoArmsOrCompletes : (idleWith [.ack]).ts ≠ .unconfigured ∧ (idleWith [.ack]).pt.remaining = 0
    ∧ directionAgrees (ioFields 0 0x50 0) (idleWith [.ack]) ∧ directionAgrees (ioFields 0 0x50 0xFFFF) (idleWith [.ack])
    ∧ (idleWith [.ack]).env.busLimit = none ∧ (takeStart (idleWith [.ack])).1 = .ack :=
  ⟨by decide, rfl, .inl rfl, .inr rfl, rfl, rfl⟩
theorem witness_NakedIoStopsOnceAndStillArms : (idleWith [.nak]).ts ≠ .unconfigured ∧ (idleWith [.nak]).pt.remaining = 0
    ∧ directionAgrees (ioFields 0 0x50 0) (idleWith [.nak]) ∧ directionAgrees (ioFields 0 0x50 1) (idleWith [.nak])
    ∧ (idleWith [.nak]).env.busLimit = none ∧ (takeStart (idleWith [.nak])).1 = .nak :=
  ⟨by decide, rfl, .inl rfl, .inr rfl, rfl, rfl⟩
theorem witness_RequestDuringTransferFaults : 0 < reading.pt.remaining
    ∧ 8 ≤ unknownRequest.packet.bRequest.toNat ∧ (ioFields 100 0 0).wLength = 0 := by decide
theorem witness_WrongDirectionFaults : (idleWith []).pt.remaining = 0 ∧ (ioFields 1 0x50 4).wLength ≠ 0
    ∧ (idleWith []).dataStage ≠ (if (ioFields 1 0x50 4).wValue.getLsbD 0 then .read else .write)
    ∧ { idleWith [] with dataStage := .read }.dataStage
      ≠ (if (ioFields 0 0x50 4).wValue.getLsbD 0 then .read else .write) := by decide
theorem witness_UnreadFieldsChangeNothing :
    sameUsed (.performIo ⟨0x41, 0, 0x50, 1⟩) (.performIoBegin ⟨0xC1, 0xFFFE, 0xFFD0, 1⟩)
    ∧ sameUsed (.echo ⟨0xC1, 0x1234, 0, 2⟩) (.echo ⟨0, 0x1234, 0xFFFF, 0⟩) := by
  unfold sameUsed sameIoFields; decide
theorem witness_RequestMovesToItsOutcome : State.reset.env.busLimit = none := rfl
theorem witness_EveryCommandCompletes :
    ((Instr.echo (ioFields 0 0 0)).wellFormed = true ∧ hostKeepsContract (.echo (ioFields 0 0 0)) State.reset)
    ∧ ((Instr.getCapabilities (ioFields 0 0 0)).wellFormed = true
      ∧ hostKeepsContract (.getCapabilities (ioFields 0 0 0)) State.reset)
    ∧ ((Instr.setDelay (ioFields 1 0 0)).wellFormed = true ∧ hostKeepsContract (.setDelay (ioFields 1 0 0)) reading)
    ∧ ((Instr.getStatus (ioFields 0 0 0)).wellFormed = true ∧ hostKeepsContract (.getStatus (ioFields 0 0 0)) State.reset)
    ∧ ((Instr.performIo (ioFields 0 0x50 1)).wellFormed = true
      ∧ hostKeepsContract (.performIo (ioFields 0 0x50 1)) (idleWith []))
    ∧ ((Instr.performIoBegin (ioFields 0 0x50 1)).wellFormed = true
      ∧ hostKeepsContract (.performIoBegin (ioFields 0 0x50 1)) (idleWith []))
    ∧ ((Instr.performIoEnd (ioFields 1 0x50 0)).wellFormed = true
      ∧ hostKeepsContract (.performIoEnd (ioFields 1 0x50 0)) (idleWith []))
    ∧ ((Instr.performIoBeginEnd (ioFields 0 0x50 0xFFFF)).wellFormed = true
      ∧ hostKeepsContract (.performIoBeginEnd (ioFields 0 0x50 0xFFFF)) (idleWith []))
    ∧ State.reset.env.busLimit = none ∧ reading.env.busLimit = none ∧ (idleWith []).env.busLimit = none := by
  unfold hostKeepsContract directionAgrees; decide
theorem witness_IllFormedCommandFaults : (Instr.setDelay (ioFields 100 0 1)).wellFormed = false := by decide
theorem witness_StopTwiceStopsOnce : reading.env.busLimit = none ∧ (idleWith []).env.busLimit = none := by decide
theorem witness_StartTracksAcknowledge : (idleWith [.ack]).env.busLimit = none ∧ (takeStart (idleWith [.ack])).1 = .ack
    ∧ (idleWith [.nak]).env.busLimit = none ∧ (takeStart (idleWith [.nak])).1 = .nak := by decide
theorem witness_BusResetDiscardsTransfer : reading.env.busLimit = none ∧ State.reset.env.busLimit = none := by decide
theorem witness_IdlePassDoesNothing : (idleWith []).pt.remaining = 0
    ∧ (0 < reading.pt.remaining ∧ reading.pt.dir = .read ∧ (⟨0, [1]⟩ : Offer).inSpace = 0)
    ∧ (0 < writing.pt.remaining ∧ writing.pt.dir = .write ∧ (⟨1, []⟩ : Offer).outChunk = []) := by decide
theorem witness_EveryPassCompletes : reading.env.busLimit = none ∧ writing.env.busLimit = none := by decide
/-- An offer one byte short of the transfer, and one of exactly its length. -/
theorem witness_ReadPassPutsBytesInOrder : reading.pt.dir = .read ∧ 0 < reading.pt.remaining
    ∧ (∃ t, pump ⟨2, []⟩ reading = .next t) ∧ (∃ t, pump ⟨3, []⟩ reading = .next t) :=
  ⟨rfl, by decide, ⟨_, rfl⟩, ⟨_, rfl⟩⟩
theorem witness_WritePassTakesBytesInOrder : writing.pt.dir = .write ∧ 0 < writing.pt.remaining
    ∧ ([1, 2] : List Byte) ≠ [] ∧ (∃ t, pump ⟨0, [1, 2]⟩ writing = .next t)
    ∧ (∃ t, pump ⟨0, [1, 2, 3]⟩ writing = .next t) :=
  ⟨rfl, by decide, by decide, ⟨_, rfl⟩, ⟨_, rfl⟩⟩
theorem witness_LastByteTagOnFinalByteOnly : ∃ t, pump ⟨3, []⟩ reading = .next t
    ∧ (receivedBytes t.trace)[2]? = some (true, .ok 3) ∧ (receivedBytes t.trace)[1]? = some (false, .ok 2) :=
  ⟨_, rfl, by decide, by decide⟩
theorem witness_NoBusAccessAfterFailure :
    (∃ t, pump ⟨3, []⟩ (moving .running ⟨.read, 3, true⟩ [.ok 1, .fail] []) = .next t
      ∧ (receivedBytes t.trace)[1]? = some (false, .fail))
    ∧ (∃ t, pump ⟨0, [1, 2, 3]⟩ (moving .running ⟨.write, 3, true⟩ [] [.fail]) = .next t
      ∧ (sentBytes t.trace)[0]? = some (1, .fail))
    ∧ (∃ t, pump ⟨3, []⟩ (moving .idle ⟨.read, 3, true⟩ [] []) = .next t)
    ∧ (moving .idle ⟨.read, 3, true⟩ [] []).is ≠ .running :=
  ⟨⟨_, rfl, by decide⟩, ⟨_, rfl, by decide⟩, ⟨_, rfl⟩, by decide⟩
theorem witness_PassAnswersComeFromScript : (∃ t, pump ⟨3, []⟩ reading = .next t)
    ∧ reading.pt.dir = .read ∧ min reading.pt.remaining 3 ≤ reading.env.recvs.length
    ∧ (∃ t, pump ⟨0, [1, 2, 3]⟩ writing = .next t)
    ∧ writing.pt.dir = .write ∧ min writing.pt.remaining 3 ≤ writing.env.sends.length :=
  ⟨⟨_, rfl⟩, rfl, by decide, ⟨_, rfl⟩, rfl, by decide⟩
theorem witness_ReadPassLeavesState : reading.pt.dir = .read ∧ 0 < reading.pt.remaining
    ∧ (∃ t, pump ⟨2, []⟩ reading = .next t ∧ (∀ r ∈ receivedBytes t.trace, r.2 ≠ .fail) ∧ 2 < reading.pt.remaining)
    ∧ (∃ t, pump ⟨3, []⟩ (moving .running ⟨.read, 3, true⟩ [.fail] []) = .next t
      ∧ (∃ r ∈ receivedBytes t.trace, r.2 = .fail) ∧ reading.pt.remaining ≤ 3) :=
  ⟨rfl, by decide, ⟨_, rfl, by decide, by decide⟩, ⟨_, rfl, by decide, by decide⟩⟩
theorem witness_WritePassLeavesState : writing.pt.dir = .write ∧ 0 < writing.pt.remaining
    ∧ (∃ t, pump ⟨0, [1, 2]⟩ writing = .next t ∧ (∀ r ∈ sentBytes t.trace, r.2 ≠ .fail) ∧ 2 < writing.pt.remaining)
    ∧ (∃ t, pump ⟨0, [1, 2, 3]⟩ (moving .running ⟨.write, 3, true⟩ [] [.fail]) = .next t
      ∧ (∃ r ∈ sentBytes t.trace, r.2 = .fail) ∧ writing.pt.remaining ≤ 3) :=
  ⟨rfl, by decide, ⟨_, rfl, by decide, by decide⟩, ⟨_, rfl, by decide, by decide⟩⟩
theorem witness_CompletionEndsTransfer : (moving .readFailed ⟨.read, 0, true⟩ [] []).env.busLimit = none
    ∧ (moving .running ⟨.write, 0, false⟩ [] []).env.busLimit = none := by decide
theorem witness_ChunkCompleteOncePerMovingPass : (∃ t, pump ⟨2, []⟩ reading = .next t ∧ 0 < t.pt.remaining)
    ∧ 0 < reading.pt.remaining ∧ reading.pt.dir = .read ∧ 0 < writing.pt.remaining ∧ writing.pt.dir = .write
    ∧ (∃ t, pump ⟨0, [1, 2, 3]⟩ writing = .next t) :=
  ⟨⟨_, rfl, by decide⟩, by decide, rfl, by decide, rfl, ⟨_, rfl⟩⟩
/-- A script of one pass, within every chunk size, and one request. -/
theorem witness_StepMovesAtMostOneChunk : legalScript (withTurns [.pass ⟨1, [1]⟩, echoTurn] reading)
    ∧ ∃ t, step (withTurns [.pass ⟨1, [1]⟩, echoTurn] reading) = .next t := by
  refine ⟨?_, _, rfl⟩
  intro t ht
  simp only [withTurns, List.mem_cons, List.not_mem_nil, or_false] at ht
  rcases ht with rfl | rfl
  · exact ⟨Nat.le_add_left 1 _, Nat.le_add_left 1 _⟩
  · trivial
/-- Four passes that offer 1, 0, 1 and 1 bytes reach the 3 bytes of the transfer, whatever the chunk size. -/
theorem witness_ReadTransferMovesExactlyItsLength :
    let os : List Offer := [⟨1, []⟩, ⟨0, []⟩, ⟨1, []⟩, ⟨1, []⟩]
    reading.pt.dir = .read ∧ 0 < reading.pt.remaining
    ∧ (withTurns (os.map Turn.pass ++ [echoTurn]) reading).env.turns = os.map Turn.pass ++ [echoTurn]
    ∧ reading.env.busLimit = none ∧ reading.pt.remaining ≤ totalSpace os := by
  refine ⟨rfl, by decide, rfl, rfl, ?_⟩
  simp [reading, moving, mk, totalSpace, Offer.clamp, Config.chunkSize]
theorem witness_WriteTransferMovesExactlyItsLength :
    let os : List Offer := [⟨0, [1]⟩, ⟨0, []⟩, ⟨0, [2]⟩, ⟨0, [3]⟩]
    writing.pt.dir = .write ∧ 0 < writing.pt.remaining
    ∧ (withTurns (os.map Turn.pass ++ [echoTurn]) writing).env.turns = os.map Turn.pass ++ [echoTurn]
    ∧ writing.env.busLimit = none ∧ writing.pt.remaining ≤ (totalBytes os).length := by
  refine ⟨rfl, by decide, rfl, rfl, ?_⟩
  simp [writing, moving, mk, totalBytes, Offer.clamp, Config.chunkSize]

/-- Program P2: the pointer 0x10 is written to slave 0x50, and then two bytes are read, here in two passes of one byte,
which every chunk size allows. -/
def programP2 : State :=
  { idleWith [.ack, .ack] with
    env := { State.reset.env with
      turns := [.request (requestWrite true false 0x50 1), .pass ⟨0, [0x10]⟩, .request (requestRead false true 0x50 2),
        .pass ⟨1, []⟩, .pass ⟨1, []⟩]
      starts := [.ack, .ack]
      sends := [.ok]
      recvs := [.ok 0xC3, .ok 0x3C] } }

theorem witness_RepeatedStartSequence : programP2.ts ≠ .unconfigured ∧ programP2.is = .idle
    ∧ programP2.pt.remaining = 0 ∧ programP2.env.busLimit = none ∧ ([0xC3, 0x3C] : List Byte) ≠ []
    ∧ ([0xC3, 0x3C] : List Byte).length ≤ 65535 ∧ ([0xC3, 0x3C] : List Byte).length ≤ totalSpace [⟨1, []⟩, ⟨1, []⟩]
    ∧ programP2.env.turns = .request (requestWrite true false 0x50 1) :: .pass ⟨0, [0x10]⟩
      :: .request (requestRead false true 0x50 (BitVec.ofNat 16 ([0xC3, 0x3C] : List Byte).length))
      :: (([⟨1, []⟩, ⟨1, []⟩] : List Offer).map Turn.pass ++ [])
    ∧ programP2.env.starts = .ack :: .ack :: [] ∧ programP2.env.sends = .ok :: []
    ∧ programP2.env.recvs = ([0xC3, 0x3C] : List Byte).map .ok ++ [] := by
  refine ⟨by decide, rfl, rfl, rfl, by decide, by decide, ?_, rfl, rfl, rfl, rfl⟩
  simp [totalSpace, Offer.clamp, Config.chunkSize]

/-- The power-on state meets the invariant and has an ECHO to handle. -/
theorem witness_StepKeepsInvariant : StateInv (withTurns [echoTurn] State.reset)
    ∧ (withTurns [echoTurn] State.reset).ts = .unconfigured
    ∧ ∃ t, step (withTurns [echoTurn] State.reset) = .next t := by
  refine ⟨⟨by decide, by decide, by decide, by decide, by decide, by decide, ?_, by decide, by decide⟩, rfl, _, rfl⟩
  intro c h
  cases h
theorem witness_OnlySetDelayConfigures : (withTurns [echoTurn] State.reset).ts = .unconfigured
    ∧ ∃ t, step (withTurns [echoTurn] State.reset) = .next t := ⟨rfl, _, rfl⟩
theorem witness_NoBusAccessBeforeConfiguration : StateInv (withTurns [echoTurn] State.reset)
    ∧ ∃ t, step (withTurns [echoTurn] State.reset) = .next t :=
  ⟨witness_StepKeepsInvariant.1, _, rfl⟩
theorem witness_ClockChangesOnlyBySetDelay : ∃ t, step (withTurns [.pass ⟨1, []⟩] reading) = .next t := ⟨_, rfl⟩
theorem witness_StatusHasThreeWriters :
    ∃ t, step (withTurns [.pass ⟨1, []⟩] (moving .running ⟨.read, 1, true⟩ [.fail] [])) = .next t
      ∧ t.ts = .addressNaked := ⟨_, rfl, rfl⟩
theorem witness_TraceOnlyGrows : ∃ t, step (withTurns [echoTurn] State.reset) = .next t := ⟨_, rfl⟩
theorem witness_StepStopsOnlyForItsCauses :
    (∃ r, step (withTurns [.request (requestSetDelay 0)] State.reset) = .fault (.undefinedDelay r))
    ∧ (∃ r, step (withTurns [.request (requestRead true true 0x50 1)] reading) = .fault (.overlappingTransfer r))
    ∧ (∃ r, step (withTurns [echoTurn] reading) = .fault (.hostProtocolViolation r))
    ∧ (∃ r, step (stuckBus (withTurns [.pass ⟨1, []⟩] reading)) = .fault (.busNeverReturns r)) :=
  ⟨⟨_, rfl⟩, ⟨_, rfl⟩, ⟨_, rfl⟩, ⟨_, rfl⟩⟩
theorem witness_UnreturnedBusCallSticks : (stuckBus reading).env.busLimit = some 0
    ∧ ((stuckBus (idleWith [])).ts ≠ .unconfigured ∧ (stuckBus (idleWith [])).pt.remaining = 0
      ∧ directionAgrees (ioFields 0 0x50 1) (stuckBus (idleWith [])))
    ∧ ((stuckBus reading).is = .running ∧ 0 < (stuckBus reading).pt.remaining ∧ (stuckBus reading).pt.dir = .read
      ∧ 0 < (⟨1, []⟩ : Offer).inSpace)
    ∧ ((stuckBus writing).is = .running ∧ 0 < (stuckBus writing).pt.remaining ∧ (stuckBus writing).pt.dir = .write
      ∧ (⟨0, [1]⟩ : Offer).outChunk ≠ []) :=
  ⟨rfl, ⟨by decide, rfl, .inr rfl⟩, ⟨rfl, by decide, rfl, by decide⟩, ⟨rfl, by decide, rfl, by decide⟩⟩

end Sys2Proof.Tests
end

section
/-! PROOFS. The scope of the block (spec/00_scope.md R8, R10, R11): the environment's draws, the move a step takes,
and what a step can move between the host and the bus. -/

namespace Sys2Proof.Machine

/-! ## The bus driver's answers, scripted and free -/

theorem takeStart_cons {s : State} {a : StartAnswer} {rest : List StartAnswer} (h : s.env.starts = a :: rest) :
    takeStart s = (a, s.writeEnv { s.env with starts := rest }) := by
  simp [takeStart, h]

theorem takeStart_nil {s : State} (h : s.env.starts = []) :
    takeStart s = (Config.startDraw s.env.draws, s.writeEnv s.env.nextDraw) := by
  simp [takeStart, h]

theorem takeSend_cons {s : State} {a : SendAnswer} {rest : List SendAnswer} (h : s.env.sends = a :: rest) :
    takeSend s = (a, s.writeEnv { s.env with sends := rest }) := by
  simp [takeSend, h]

theorem takeSend_nil {s : State} (h : s.env.sends = []) :
    takeSend s = (Config.sendDraw s.env.draws, s.writeEnv s.env.nextDraw) := by
  simp [takeSend, h]

theorem takeRecv_cons {s : State} {a : RecvAnswer} {rest : List RecvAnswer} (h : s.env.recvs = a :: rest) :
    takeRecv s = (a, s.writeEnv { s.env with recvs := rest }) := by
  simp [takeRecv, h]

theorem takeRecv_nil {s : State} (h : s.env.recvs = []) :
    takeRecv s = (Config.recvDraw s.env.draws, s.writeEnv s.env.nextDraw) := by
  simp [takeRecv, h]

/-- Settles O12: each of the three draws, by whether its script is empty. -/
theorem busAnswersAreDrawnInOrder : Obligations.BusAnswersAreDrawnInOrder := fun _ =>
  ⟨fun _ _ => takeStart_cons, takeStart_nil, fun _ _ => takeSend_cons, takeSend_nil, fun _ _ => takeRecv_cons,
    takeRecv_nil⟩

/-! ## The move a step takes -/

theorem takeTurn_nil {s : State} (h : s.env.turns = []) :
    takeTurn s = ((Config.turnDraw s.env.draws).clamp, s.writeEnv s.env.nextDraw) := by
  simp [takeTurn, h]

theorem step_of_takeTurn_pass {s u : State} {o : Offer} (h : takeTurn s = (.pass o, u)) : step s = pump o u := by
  simp [step, h]

/-- A step reads its state only through the move it takes. -/
theorem step_congr {s t : State} (h : takeTurn s = takeTurn t) : step s = step t := by
  simp only [step, h]

/-- Settles O9: the scripted move is cut to the bounds of R10, which leave a legal offer as it is. -/
theorem stepRunsPumpPass : Obligations.StepRunsPumpPass := by
  intro s o rest h
  have hstep : step s = pump o.clamp (s.writeEnv { s.env with turns := rest }) :=
    step_of_takeTurn_pass (takeTurn_cons s _ rest h)
  refine ⟨hstep, fun hin hout => ?_⟩
  rwa [clamp_of_legal ⟨hin, hout⟩] at hstep

/-- Settles O10: the free move, scripted in its cut form, is taken as it is and leaves the same state. -/
theorem emptyScriptDrawsFreeMove : Obligations.EmptyScriptDrawsFreeMove := by
  intro s h
  refine ⟨by rw [takeTurn_nil h], takeTurn_legal s, step_congr ?_⟩
  rw [takeTurn_nil h, takeTurn_cons _ _ [] rfl, clamp_clamp]
  simp [State.writeEnv, Env.nextDraw, h]

/-! ## The bytes that events move -/

/-- Two lists of events move the same bytes at all four interfaces, in the same order (R62). -/
structure SameBytes (es run : List Event) : Prop where
  put : putBytes es = putBytes run
  taken : takenBytes es = takenBytes run
  sent : sentBytes es = sentBytes run
  received : receivedBytes es = receivedBytes run

theorem SameBytes.refl (es : List Event) : SameBytes es es := ⟨rfl, rfl, rfl, rfl⟩

theorem SameBytes.append {a b c d : List Event} (h : SameBytes a b) (k : SameBytes c d) :
    SameBytes (a ++ c) (b ++ d) := by
  constructor <;> simp [h.put, h.taken, h.sent, h.received, k.put, k.taken, k.sent, k.received]

/-- The trace of `t` is that of `s` and new events that move the bytes of `run`. -/
def TraceMoves (s t : State) (run : List Event) : Prop := ∃ es, t.trace = s.trace ++ es ∧ SameBytes es run

/-! ## What a pass moves -/

/-- The end of a pass leaves the script of moves, and its signals move no byte. -/
theorem PassEnd.moves {u t : State} (h : PassEnd u t) : t.env.turns = u.env.turns ∧ TraceMoves u t [] := by
  refine ⟨?_, ?_⟩
  · cases h with
    | more => rfl
    | last _ v hv => exact hv
  · obtain ⟨ending, htrace, -, -, hput, htaken, hsent, hreceived⟩ := passEnd_trace h
    have hsignal : SameBytes [.usbChunkComplete] [] := ⟨rfl, rfl, rfl, rfl⟩
    exact ⟨[.usbChunkComplete] ++ ending, by simp [htrace], hsignal.append ⟨hput, htaken, hsent, hreceived⟩⟩

/-- A pass that runs a byte loop after its readiness query moves the bytes of the loop. -/
theorem PassEnd.moves_run {k : Nat} {query : Event} {run : List Event} {is' : InternalStatus} {v : Env} {s t : State}
    (hquery : SameBytes [query] []) (h : PassEnd (movedState k (query :: run) is' v s) t) :
    t.env.turns = v.turns ∧ TraceMoves s t run := by
  obtain ⟨hturns, es, htrace, hes⟩ := h.moves
  refine ⟨hturns, ([query] ++ run) ++ es, by simp [htrace, movedState], ?_⟩
  simpa using (hquery.append (SameBytes.refl run)).append hes

/-- The bytes a pass can move: none, or those of a run of the loop of its direction, whose answers are the script's
next ones while the script lasts. -/
inductive PassMoves (o : Offer) (s : State) : List Event → Prop
  | nothing : PassMoves o s []
  | read {run : List Event} {is' : InternalStatus} {left : List RecvAnswer} (hdir : s.pt.dir = .read)
      (hrun : ReadRun s.is s.pt.remaining o.inSpace run is')
      (hscript : min s.pt.remaining o.inSpace ≤ s.env.recvs.length →
        s.env.recvs = (receivedBytes run).map Prod.snd ++ left) : PassMoves o s run
  | write {run : List Event} {is' : InternalStatus} {left : List SendAnswer} (hdir : s.pt.dir = .write)
      (hrun : WriteRun s.is s.pt.remaining o.outChunk run is')
      (hscript : min s.pt.remaining o.outChunk.length ≤ s.env.sends.length →
        s.env.sends = (sentBytes run).map Prod.snd ++ left) : PassMoves o s run

/-- A pass leaves the script of moves and moves the bytes of its loop. -/
theorem pump_moves {o : Offer} {s t : State} (h : pump o s = .next t) :
    t.env.turns = s.env.turns ∧ ∃ run, PassMoves o s run ∧ TraceMoves s t run := by
  rcases pump_next h with ⟨-, rfl⟩ | ⟨-, -, -, rfl⟩ | ⟨-, -, -, rfl⟩
    | ⟨-, hdir, -, run, is', v, hrun, hturns, hscript, hend⟩
    | ⟨-, hdir, -, run, is', v, hrun, hturns, hscript, hend⟩
  · exact ⟨rfl, [], .nothing, [], by simp, .refl _⟩
  · exact ⟨rfl, [], .nothing, [.usbInReady false], rfl, rfl, rfl, rfl, rfl⟩
  · exact ⟨rfl, [], .nothing, [.usbOutReady false], rfl, rfl, rfl, rfl, rfl⟩
  · obtain ⟨ht, hmoves⟩ := hend.moves_run ⟨rfl, rfl, rfl, rfl⟩
    exact ⟨ht.trans hturns, run, .read hdir hrun hscript, hmoves⟩
  · obtain ⟨ht, hmoves⟩ := hend.moves_run ⟨rfl, rfl, rfl, rfl⟩
    exact ⟨ht.trans hturns, run, .write hdir hrun hscript, hmoves⟩

theorem PassMoves.recvs_take {o : Offer} {s : State} {run : List Event} (h : PassMoves o s run)
    (hdir : s.pt.dir = .read) (hlen : min s.pt.remaining o.inSpace ≤ s.env.recvs.length) :
    s.env.recvs.take (receivedBytes run).length = (receivedBytes run).map Prod.snd := by
  cases h with
  | nothing => rfl
  | read _ _ hscript => rw [hscript hlen, List.take_left' (List.length_map _)]
  | write hwrite => rw [hdir] at hwrite; cases hwrite

theorem PassMoves.sends_take {o : Offer} {s : State} {run : List Event} (h : PassMoves o s run)
    (hdir : s.pt.dir = .write) (hlen : min s.pt.remaining o.outChunk.length ≤ s.env.sends.length) :
    s.env.sends.take (sentBytes run).length = (sentBytes run).map Prod.snd := by
  cases h with
  | nothing => rfl
  | read hread => rw [hdir] at hread; cases hread
  | write _ _ hscript => rw [hscript hlen, List.take_left' (List.length_map _)]

/-- Settles O42: the answers of a run of the byte loop are the first ones of the script, and no other event of the pass
gets an answer of the script. -/
theorem passAnswersComeFromScript : Obligations.PassAnswersComeFromScript := by
  intro o s t h
  obtain ⟨-, run, hrun, es, htrace, hes⟩ := pump_moves h
  refine ⟨es, htrace, ?_, ?_⟩
  · rw [hes.received]; exact hrun.recvs_take
  · rw [hes.sent]; exact hrun.sends_take

/-- A run puts at most the space offered and takes at most the bytes offered. -/
theorem PassMoves.within_offer {o : Offer} {s : State} {run : List Event} (h : PassMoves o s run) :
    (putBytes run).length ≤ o.inSpace ∧ (takenBytes run).length ≤ o.outChunk.length := by
  cases h with
  | nothing => exact ⟨Nat.zero_le _, Nat.zero_le _⟩
  | read _ hrun =>
    rw [hrun.facts.putLen, hrun.facts.taken]
    exact ⟨Nat.min_le_right _ _, Nat.zero_le _⟩
  | write _ hrun =>
    rw [hrun.facts.put, hrun.facts.takenEq]
    exact ⟨Nat.zero_le _, List.length_take_le' _ _⟩

/-! ## What a Dispatcher step moves -/

@[simp] theorem ioAcked_env (p : Packet) (v : Env) (s : State) : (ioAcked p v s).env = v := by
  unfold ioAcked; split <;> rfl

@[simp] theorem ioNaked_env (p : Packet) (v : Env) (s : State) : (ioNaked p v s).env = v := by
  unfold ioNaked; split <;> rfl

theorem clockedState_moves (c : ClockConfig) (v : Env) (s : State) : TraceMoves s (clockedState c v s) [] := by
  refine ⟨_, List.append_assoc .., ?_⟩
  split <;> exact ⟨rfl, rfl, rfl, rfl⟩

theorem ioAcked_moves (p : Packet) (v : Env) (s : State) : TraceMoves s (ioAcked p v s) [] := by
  unfold ioAcked
  split
  · refine ⟨_, (List.append_assoc ..).trans (List.append_assoc ..), ?_⟩
    split <;> exact ⟨rfl, rfl, rfl, rfl⟩
  · exact ⟨_, rfl, rfl, rfl, rfl, rfl⟩

theorem ioNaked_moves (p : Packet) (v : Env) (s : State) : TraceMoves s (ioNaked p v s) [] := by
  unfold ioNaked
  split
  · exact ⟨_, List.append_assoc .., rfl, rfl, rfl, rfl⟩
  · exact ⟨_, rfl, rfl, rfl, rfl, rfl⟩

/-- The arrival of a request is one event, which moves no byte. -/
theorem TraceMoves.of_deliver {req : Request} {s t : State} (h : TraceMoves (deliver req s) t []) :
    TraceMoves s t [] := by
  obtain ⟨es, htrace, hes⟩ := h
  have harrival : SameBytes [.onControlRequest req] [] := ⟨rfl, rfl, rfl, rfl⟩
  exact ⟨[.onControlRequest req] ++ es, by simp [htrace, deliver], harrival.append hes⟩

/-- A Dispatcher step leaves the script of moves and moves no byte of a transfer. -/
theorem dispatch_moves {req : Request} {s t : State} (h : dispatch req s = .next t) :
    t.env.turns = s.env.turns ∧ TraceMoves s t [] := by
  rcases dispatch_next h with ⟨bytes, rfl⟩ | ⟨r, rfl⟩ | ⟨c, v, -, -, hv, rfl⟩ | ⟨-, -, -, -, p, v, hv, rfl | rfl⟩
  · exact ⟨rfl, .of_deliver ⟨_, rfl, rfl, rfl, rfl, rfl⟩⟩
  · exact ⟨rfl, .of_deliver ⟨_, rfl, rfl, rfl, rfl, rfl⟩⟩
  · exact ⟨hv, (clockedState_moves c v _).of_deliver⟩
  · exact ⟨by rw [ioAcked_env, hv], (ioAcked_moves p v _).of_deliver⟩
  · exact ⟨by rw [ioNaked_env, hv], (ioNaked_moves p v _).of_deliver⟩

/-! ## What a step moves -/

/-- A step takes one move of the script and moves the bytes of a Dispatcher step, which are none, or of a pass whose
offer keeps the bounds of R10. -/
theorem step_moves {s t : State} (h : step s = .next t) :
    t.env.turns = s.env.turns.tail ∧ ∃ run, TraceMoves s t run
      ∧ (putBytes run).length ≤ Config.chunkSize ∧ (takenBytes run).length ≤ Config.chunkSize := by
  have htail := takeTurn_turns s
  rcases step_cases s with ⟨req, v, hturn, hstep, -⟩ | ⟨o, v, hturn, hstep, -⟩ <;>
    rw [hstep] at h <;> rw [hturn] at htail
  · obtain ⟨hturns, hmoves⟩ := dispatch_moves h
    exact ⟨hturns.trans htail, [], hmoves, Nat.zero_le _, Nat.zero_le _⟩
  · obtain ⟨hturns, run, hrun, hmoves⟩ := pump_moves h
    obtain ⟨hput, htaken⟩ := hrun.within_offer
    have hlegal : (Turn.pass o).legal := by simpa [hturn] using takeTurn_legal s
    exact ⟨hturns.trans htail, run, hmoves, Nat.le_trans hput hlegal.1, Nat.le_trans htaken hlegal.2⟩

/-- Settles O47: what a step moves is bounded by the chunk size, and a tail of a legal script is legal. -/
theorem stepMovesAtMostOneChunk : Obligations.StepMovesAtMostOneChunk := by
  intro s t h
  obtain ⟨hturns, run, ⟨es, htrace, hes⟩, hput, htaken⟩ := step_moves h
  refine ⟨hturns, fun hlegal turn hmem => ?_, es, htrace, ?_, ?_⟩
  · rw [hturns] at hmem
    exact hlegal turn (List.mem_of_mem_tail hmem)
  · rwa [hes.put]
  · rwa [hes.taken]

end Sys2Proof.Machine
end

section
/-! PROOFS. The state of the block (spec/10_state.md R20 to R38): which commands there are, what writes the status and
the clock, and the invariant that every step keeps. -/

namespace Sys2Proof

/-- Every command's opcode is one of the eight of the table (R91). -/
theorem Instr.opcode_toNat_le (i : Instr) : i.opcode.toNat ≤ 7 := by
  cases i <;> simp [Instr.opcode]

/-- Settles O4: decoding finds a command of the packet's opcode, which is at most 7, or names an opcode of at least
8. -/
theorem opcodeSelectsCommand : Obligations.OpcodeSelectsCommand := by
  intro p
  rcases decode_cases p with ⟨i, hdec, hop, hfields⟩ | ⟨hdec, hge⟩
  · have hle := i.opcode_toNat_le
    rw [hop] at hle
    exact ⟨fun _ => ⟨i, hdec, hop, hfields⟩, fun hge => by omega⟩
  · exact ⟨fun hle => by omega, fun _ => hdec⟩

end Sys2Proof

namespace Sys2Proof.Machine

/-! ## The events that neither open nor close the bus -/

/-- An event that is neither a START nor a STOP (R33). -/
def LeavesBus (e : Event) : Prop := ∀ was : Bool, openAfter was e = was

theorem foldl_openAfter_of_leavesBus {es : List Event} (h : ∀ e ∈ es, LeavesBus e) (was : Bool) :
    es.foldl openAfter was = was := by
  induction es with
  | nil => rfl
  | cons e es ih =>
    obtain ⟨he, hes⟩ := List.forall_mem_cons.mp h
    rw [List.foldl_cons, he, ih hes]

@[simp] theorem traceOpen_append (es new : List Event) :
    traceOpen (es ++ new) = new.foldl openAfter (traceOpen es) := List.foldl_append

theorem ReadFacts.leavesBus {is is' : InternalStatus} {r n : Nat} {es : List Event} (f : ReadFacts is r n es is') :
    ∀ e ∈ es, LeavesBus e := by
  intro e he
  rcases f.kinds e he with ⟨_, rfl⟩ | ⟨_, rfl⟩ | ⟨_, _, rfl⟩ <;> exact fun _ => rfl

theorem WriteFacts.leavesBus {is is' : InternalStatus} {r : Nat} {bs : List Byte} {es : List Event}
    (f : WriteFacts is r bs es is') : ∀ e ∈ es, LeavesBus e := by
  intro e he
  rcases f.kinds e he with ⟨_, rfl⟩ | ⟨_, rfl⟩ | ⟨_, _, rfl⟩ <;> exact fun _ => rfl

/-! ## What an operation leaves in each element -/

@[simp] theorem ioAcked_ts (p : Packet) (v : Env) (s : State) : (ioAcked p v s).ts = .addressAcked := by
  unfold ioAcked; split <;> rfl

@[simp] theorem ioAcked_is (p : Packet) (v : Env) (s : State) :
    (ioAcked p v s).is = if lengthOf p = 0 ∧ endFlag p = true then .idle else .running := by
  unfold ioAcked; split <;> simp [*]

@[simp] theorem ioAcked_pt (p : Packet) (v : Env) (s : State) :
    (ioAcked p v s).pt = if lengthOf p = 0 then s.pt else ⟨dirOf p, lengthOf p, endFlag p⟩ := by
  unfold ioAcked; split <;> rfl

@[simp] theorem ioAcked_cc (p : Packet) (v : Env) (s : State) : (ioAcked p v s).cc = s.cc := by
  unfold ioAcked; split <;> rfl

@[simp] theorem ioAcked_clockReg (p : Packet) (v : Env) (s : State) : (ioAcked p v s).clockReg = s.clockReg := by
  unfold ioAcked; split <;> rfl

@[simp] theorem ioNaked_ts (p : Packet) (v : Env) (s : State) : (ioNaked p v s).ts = .addressNaked := by
  unfold ioNaked; split <;> rfl

@[simp] theorem ioNaked_is (p : Packet) (v : Env) (s : State) : (ioNaked p v s).is = .idle := by
  unfold ioNaked; split <;> rfl

@[simp] theorem ioNaked_pt (p : Packet) (v : Env) (s : State) :
    (ioNaked p v s).pt = if lengthOf p = 0 then s.pt else ⟨dirOf p, lengthOf p, endFlag p⟩ := by
  unfold ioNaked; split <;> rfl

@[simp] theorem ioNaked_cc (p : Packet) (v : Env) (s : State) : (ioNaked p v s).cc = s.cc := by
  unfold ioNaked; split <;> rfl

@[simp] theorem ioNaked_clockReg (p : Packet) (v : Env) (s : State) : (ioNaked p v s).clockReg = s.clockReg := by
  unfold ioNaked; split <;> rfl

/-- A pass changes nothing, records one query, or moves bytes by a loop that leaves the bus as it is and then ends. -/
theorem pump_shape {o : Offer} {s t : State} (h : pump o s = .next t) :
    t = s ∨ (∃ query, LeavesBus query ∧ t = s.record query)
      ∨ (0 < s.pt.remaining ∧ ∃ k es is' v, StatusOk s.is is' ∧ (∀ e ∈ es, LeavesBus e)
          ∧ PassEnd (movedState k es is' v s) t) := by
  rcases pump_next h with ⟨-, rfl⟩ | ⟨-, -, -, rfl⟩ | ⟨-, -, -, rfl⟩
    | ⟨hpos, -, -, run, is', v, hrun, -, -, hend⟩ | ⟨hpos, -, -, run, is', v, hrun, -, -, hend⟩
  · exact .inl rfl
  · exact .inr (.inl ⟨_, fun _ => rfl, rfl⟩)
  · exact .inr (.inl ⟨_, fun _ => rfl, rfl⟩)
  · exact .inr (.inr ⟨hpos, _, _, is', v, hrun.facts.status,
      List.forall_mem_cons.mpr ⟨fun _ => rfl, hrun.facts.leavesBus⟩, hend⟩)
  · exact .inr (.inr ⟨hpos, _, _, is', v, hrun.facts.status,
      List.forall_mem_cons.mpr ⟨fun _ => rfl, hrun.facts.leavesBus⟩, hend⟩)

/-! ## The writers of the clock and of the status -/

theorem PassEnd.clock {u t : State} (h : PassEnd u t) : t.cc = u.cc ∧ t.clockReg = u.clockReg := by
  cases h <;> exact ⟨rfl, rfl⟩

theorem pump_clock {o : Offer} {s t : State} (h : pump o s = .next t) : t.cc = s.cc ∧ t.clockReg = s.clockReg := by
  rcases pump_shape h with rfl | ⟨query, -, rfl⟩ | ⟨-, k, es, is', v, -, -, hend⟩
  · exact ⟨rfl, rfl⟩
  · exact ⟨rfl, rfl⟩
  · exact hend.clock

/-- Settles O56: of the outcomes of a Dispatcher step only that of a SET_DELAY writes the clock, and no pass does. -/
theorem clockChangesOnlyBySetDelay : Obligations.ClockChangesOnlyBySetDelay := by
  intro s t h
  rcases step_cases s with ⟨req, v, hturn, hstep, -⟩ | ⟨o, v, hturn, hstep, -⟩ <;> rw [hstep] at h
  · rcases dispatch_next h with ⟨bytes, rfl⟩ | ⟨r, rfl⟩ | ⟨c, w, hop, hc, -, rfl⟩ | ⟨-, -, -, -, p, w, -, rfl | rfl⟩
    · exact .inl ⟨rfl, rfl⟩
    · exact .inl ⟨rfl, rfl⟩
    · exact .inr ⟨req, c, by rw [hturn], hop, hc, rfl, rfl⟩
    · exact .inl ⟨ioAcked_cc .., ioAcked_clockReg ..⟩
    · exact .inl ⟨ioNaked_cc .., ioNaked_clockReg ..⟩
  · have hkept := pump_clock h
    exact .inl hkept

/-- The end of a pass writes the status only when it completes the transfer after a failure (R22, R170). -/
theorem PassEnd.ts {u t : State} (h : PassEnd u t) :
    t.ts = u.ts ∨ (t.pt.remaining = 0 ∧ t.ts = .addressNaked) := by
  cases h with
  | more => exact .inl rfl
  | last _ v _ =>
    by_cases hfail : failureLatched (u.record .usbChunkComplete) = true
    · exact .inr ⟨rfl, if_pos hfail⟩
    · exact .inl (if_neg hfail)

theorem pump_ts {o : Offer} {s t : State} (h : pump o s = .next t) :
    t.ts = s.ts ∨ (0 < s.pt.remaining ∧ t.pt.remaining = 0 ∧ t.ts = .addressNaked) := by
  rcases pump_shape h with rfl | ⟨query, -, rfl⟩ | ⟨hpos, k, es, is', v, -, -, hend⟩
  · exact .inl rfl
  · exact .inl rfl
  · exact hend.ts.imp_right fun hlast => ⟨hpos, hlast⟩

/-- Settles O57: each outcome of a Dispatcher step keeps the status or is that of one of the two writing commands, and
a pass writes it only at a completion. -/
theorem statusHasThreeWriters : Obligations.StatusHasThreeWriters := by
  intro s t h
  rcases step_cases s with ⟨req, v, hturn, hstep, -⟩ | ⟨o, v, hturn, hstep, -⟩ <;>
    rw [hstep] at h <;> rw [hturn]
  · rcases dispatch_next h with ⟨bytes, rfl⟩ | ⟨r, rfl⟩ | ⟨c, w, hop, -, -, rfl⟩
      | ⟨-, -, hge, hle, p, w, -, rfl | rfl⟩
    · exact .inl rfl
    · exact .inl rfl
    · exact .inr (.inl ⟨req, rfl, hop, rfl⟩)
    · exact .inr (.inr (.inl ⟨req, rfl, hge, hle, .inl (ioAcked_ts ..)⟩))
    · exact .inr (.inr (.inl ⟨req, rfl, hge, hle, .inr (ioNaked_ts ..)⟩))
  · exact (pump_ts h).imp_right fun hlast => .inr (.inr ⟨o, rfl, hlast⟩)

/-! ## The invariant under what leaves every element but the trace and the script -/

/-- Settles O52: each clause of the invariant at the power-on state. -/
theorem powerOnMeetsInvariant : Obligations.PowerOnMeetsInvariant where
  notTransient := by decide
  configured := by decide
  clocked := by decide
  noTransfer _ := rfl
  inRange := by decide
  canonical _ := rfl
  clockWritten _ hc := by cases hc
  heldOnWire := rfl
  nakedTransfer hpos := absurd hpos (by decide)

theorem StateInv.record {s : State} (h : StateInv s) {e : Event} (he : LeavesBus e) : StateInv (s.record e) :=
  { h with heldOnWire := by rw [record_trace, traceOpen_append, List.foldl_cons, he]; exact h.heldOnWire }

theorem StateInv.writeEnv {s : State} (h : StateInv s) (v : Env) : StateInv (s.writeEnv v) := { h with }

theorem StateInv.deliver {s : State} (h : StateInv s) (req : Request) : StateInv (deliver req s) :=
  StateInv.record (s := s.writeDataStage req.dataStage) { h with } fun _ => rfl

/-! ## The invariant of a configured block -/

/-- What holds of a configured block between two steps, and inside a pass too: all of the invariant but the one form of
an empty transfer, which only the end of the pass writes. -/
structure ConfiguredInv (s : State) : Prop where
  ts : s.ts ≠ .unconfigured
  is : s.is ≠ .unconfigured
  notTransient : s.is ≠ .addressNaked
  cc : s.cc ≠ none
  inRange : s.pt.remaining ≤ 65535
  clockWritten : ∀ c, s.cc = some c → s.clockReg = c
  heldOnWire : heldStatus s.is = traceOpen s.trace
  nakedTransfer : 0 < s.pt.remaining → s.is = .idle → s.ts = .addressNaked

theorem StateInv.configuredInv {s : State} (h : StateInv s) (hts : s.ts ≠ .unconfigured) : ConfiguredInv s where
  ts := hts
  is := mt h.configured.mpr hts
  notTransient := h.notTransient
  cc := mt h.clocked.mpr hts
  inRange := h.inRange
  clockWritten := h.clockWritten
  heldOnWire := h.heldOnWire
  nakedTransfer := h.nakedTransfer

theorem ConfiguredInv.stateInv {s : State} (h : ConfiguredInv s) (hpt : s.pt.remaining = 0 → s.pt = .empty) :
    StateInv s where
  notTransient := h.notTransient
  configured := iff_of_false h.ts h.is
  clocked := iff_of_false h.ts h.cc
  noTransfer hts := absurd hts h.ts
  inRange := h.inRange
  canonical := hpt
  clockWritten := h.clockWritten
  heldOnWire := h.heldOnWire
  nakedTransfer := h.nakedTransfer

/-! ## The invariant under a request -/

/-- A successful SET_DELAY leaves the bus stopped, whatever it was (R194). -/
theorem StateInv.clockedState {s : State} (h : StateInv s) (c : ClockConfig) (v : Env) :
    StateInv (clockedState c v s) := by
  have hclosed : traceOpen (Machine.clockedState c v s).trace = false := by
    have hheld : heldStatus s.is = traceOpen s.trace := h.heldOnWire
    simp only [Machine.clockedState, traceOpen_append]
    split <;> rename_i hi
    · rcases hi with hi | hi <;> rw [← hheld, hi] <;> rfl
    · rfl
  refine ConfiguredInv.stateInv ?_ fun _ => rfl
  exact {
    ts := by simp [Machine.clockedState]
    is := by simp [Machine.clockedState]
    notTransient := by simp [Machine.clockedState]
    cc := by simp [Machine.clockedState]
    inRange := Nat.zero_le _
    clockWritten := fun _ hc => Option.some.inj hc
    heldOnWire := hclosed.symm
    nakedTransfer := fun hpos => absurd hpos (Nat.lt_irrefl 0) }

theorem lengthOf_le (p : Packet) : lengthOf p ≤ 65535 := Nat.le_of_lt_succ p.wLength.isLt

/-- The transfer that a PERFORM_IO leaves when none was in flight is in range and empty in one form (R25, R199). -/
theorem StateInv.armed {s : State} (h : StateInv s) (h0 : s.pt.remaining = 0) (p : Packet) {pt : PendingTransfer}
    (hpt : pt = if lengthOf p = 0 then s.pt else ⟨dirOf p, lengthOf p, endFlag p⟩) :
    pt.remaining = lengthOf p ∧ (pt.remaining = 0 → pt = .empty) := by
  subst hpt
  split <;> rename_i hl
  · exact ⟨h0.trans hl.symm, h.canonical⟩
  · exact ⟨rfl, fun hl' => absurd hl' hl⟩

theorem StateInv.ioAcked {s : State} (h : StateInv s) (hts : s.ts ≠ .unconfigured) (h0 : s.pt.remaining = 0)
    (p : Packet) (v : Env) : StateInv (ioAcked p v s) := by
  obtain ⟨hlen, hempty⟩ := h.armed h0 p (ioAcked_pt p v s)
  refine ConfiguredInv.stateInv ?_ hempty
  have hc := h.configuredInv hts
  exact {
    ts := by simp
    is := by rw [ioAcked_is]; split <;> simp
    notTransient := by rw [ioAcked_is]; split <;> simp
    cc := by simpa using hc.cc
    inRange := hlen ▸ lengthOf_le p
    clockWritten := by simpa using hc.clockWritten
    heldOnWire := by
      unfold Machine.ioAcked
      split
      · cases endFlag p <;> simp [openAfter, heldStatus]
      · simp [openAfter, heldStatus]
    nakedTransfer := by
      intro hpos hidle
      rw [hlen] at hpos
      simp [Nat.ne_of_gt hpos] at hidle }

theorem StateInv.ioNaked {s : State} (h : StateInv s) (hts : s.ts ≠ .unconfigured) (h0 : s.pt.remaining = 0)
    (p : Packet) (v : Env) : StateInv (ioNaked p v s) := by
  obtain ⟨hlen, hempty⟩ := h.armed h0 p (ioNaked_pt p v s)
  refine ConfiguredInv.stateInv ?_ hempty
  have hc := h.configuredInv hts
  exact {
    ts := by simp
    is := by simp
    notTransient := by simp
    cc := by simpa using hc.cc
    inRange := hlen ▸ lengthOf_le p
    clockWritten := by simpa using hc.clockWritten
    heldOnWire := by unfold Machine.ioNaked; split <;> simp [openAfter, heldStatus]
    nakedTransfer := fun _ _ => ioNaked_ts p v s }

/-- Every Dispatcher step keeps the invariant. -/
theorem StateInv.dispatch {req : Request} {s t : State} (hs : StateInv s) (h : dispatch req s = .next t) :
    StateInv t := by
  have hd := hs.deliver req
  rcases dispatch_next h with ⟨bytes, rfl⟩ | ⟨r, rfl⟩ | ⟨c, v, -, -, -, rfl⟩ | ⟨h0, hts, -, -, p, v, -, rfl | rfl⟩
  · exact hd.record fun _ => rfl
  · exact hd.record fun _ => rfl
  · exact hd.clockedState c v
  · exact hd.ioAcked hts h0 p v
  · exact hd.ioNaked hts h0 p v

/-! ## The invariant under a pass -/

/-- A byte loop keeps what holds of a configured block. -/
theorem ConfiguredInv.movedState {s : State} (h : ConfiguredInv s) {es : List Event} {is' : InternalStatus}
    (hstatus : StatusOk s.is is') (hes : ∀ e ∈ es, LeavesBus e) (k : Nat) (v : Env) :
    ConfiguredInv (movedState k es is' v s) := by
  have hkept : is' = s.is ∨ is' = .running ∨ is' = .readFailed ∨ is' = .writeFailed := by
    by_cases hrun : s.is = .running
    · exact .inr (hstatus.run hrun)
    · exact .inl (hstatus.eq hrun)
  exact {
    ts := h.ts
    is := by rcases hkept with rfl | rfl | rfl | rfl <;> simp [Machine.movedState, h.is]
    notTransient := by rcases hkept with rfl | rfl | rfl | rfl <;> simp [Machine.movedState, h.notTransient]
    cc := h.cc
    inRange := Nat.le_trans (Nat.sub_le _ _) h.inRange
    clockWritten := h.clockWritten
    heldOnWire := by
      simp only [Machine.movedState, traceOpen_append, foldl_openAfter_of_leavesBus hes]
      exact hstatus.held.trans h.heldOnWire
    nakedTransfer := by
      intro hpos hidle
      replace hidle : is' = .idle := hidle
      have hsame : is' = s.is := hkept.resolve_right (by simp [hidle])
      exact h.nakedTransfer (Nat.lt_of_lt_of_le hpos (Nat.sub_le _ _)) (hsame.symm.trans hidle) }

theorem ConfiguredInv.record {s : State} (h : ConfiguredInv s) {e : Event} (he : LeavesBus e) :
    ConfiguredInv (s.record e) :=
  { h with heldOnWire := by rw [record_trace, traceOpen_append, List.foldl_cons, he]; exact h.heldOnWire }

/-- A completion leaves the bus open exactly when it was open and no stop was deferred to it (R170). -/
theorem ConfiguredInv.completedState {s : State} (h : ConfiguredInv s) (v : Env) :
    ConfiguredInv (completedState v s) where
  ts := by
    simp only [Machine.completedState]
    split
    · simp
    · exact h.ts
  is := by
    simp only [Machine.completedState]
    split
    · simp
    · exact h.is
  notTransient := by
    simp only [Machine.completedState]
    split
    · simp
    · exact h.notTransient
  cc := h.cc
  inRange := Nat.zero_le _
  clockWritten := h.clockWritten
  heldOnWire := by
    have hheld := h.heldOnWire
    have hstage (was : Bool) :
        (if s.pt.dir = .write then [Event.usbStatusStage] else []).foldl openAfter was = was := by
      split <;> rfl
    simp only [Machine.completedState, traceOpen_append, hstage]
    cases hstop : s.pt.deferStop with
    | false => simpa using hheld
    | true =>
      by_cases hidle : s.is = .idle
      · simpa [hidle] using hheld
      · simp [hidle, openAfter, heldStatus]
  nakedTransfer hpos := absurd hpos (Nat.lt_irrefl 0)

/-- The end of a pass writes an empty transfer in its one form. -/
theorem ConfiguredInv.passEnd {u t : State} (h : ConfiguredInv u) (hend : PassEnd u t) : StateInv t := by
  have hchunk : ConfiguredInv (u.record .usbChunkComplete) := h.record fun _ => rfl
  cases hend with
  | more hmore => exact hchunk.stateInv fun h0 => absurd h0 hmore
  | last _ v _ => exact (hchunk.completedState v).stateInv fun _ => rfl

/-- Every pass keeps the invariant. -/
theorem StateInv.pump {o : Offer} {s t : State} (hs : StateInv s) (h : pump o s = .next t) : StateInv t := by
  rcases pump_shape h with rfl | ⟨query, hquery, rfl⟩ | ⟨hpos, k, es, is', v, hstatus, hes, hend⟩
  · exact hs
  · exact hs.record hquery
  · have hts : s.ts ≠ .unconfigured := fun hts => Nat.ne_of_gt hpos (hs.noTransfer hts)
    exact ((hs.configuredInv hts).movedState hstatus hes k v).passEnd hend

/-- Settles O53: the move a step takes changes the script only, and a Dispatcher step and a pass both keep the
invariant. -/
theorem stepKeepsInvariant : Obligations.StepKeepsInvariant := by
  intro s t hs h
  rcases step_cases s with ⟨req, v, -, hstep, -⟩ | ⟨o, v, -, hstep, -⟩ <;> rw [hstep] at h
  · exact (hs.writeEnv v).dispatch h
  · exact (hs.writeEnv v).pump h

end Sys2Proof.Machine
end

section
/-! PROOFS. The bytes a pass moves between the host and the bus, in order (spec/20_memory.md R62,
spec/42_transfer_continuation.md R162 to R169). -/

namespace Sys2Proof.Machine

/-! ## A ready pass runs its loop -/

/-- A pass of a read transfer that is ready moves the bytes of a run of the read loop. -/
theorem pump_moves_readRun {o : Offer} {s t : State} (hdir : s.pt.dir = .read) (hpos : 0 < s.pt.remaining)
    (hspace : 0 < o.inSpace) (h : pump o s = .next t) :
    ∃ run is', ReadRun s.is s.pt.remaining o.inSpace run is' ∧ TraceMoves s t run := by
  rcases pump_next h with ⟨h0, -⟩ | ⟨-, -, h0, -⟩ | ⟨-, hwrite, -⟩ | ⟨-, -, -, run, is', v, hrun, -, -, hend⟩
    | ⟨-, hwrite, -⟩
  · exact absurd h0 (Nat.ne_of_gt hpos)
  · exact absurd h0 (Nat.ne_of_gt hspace)
  · cases hdir.symm.trans hwrite
  · exact ⟨run, is', hrun, (hend.moves_run ⟨rfl, rfl, rfl, rfl⟩).2⟩
  · cases hdir.symm.trans hwrite

/-- A pass of a write transfer that is ready moves the bytes of a run of the write loop. -/
theorem pump_moves_writeRun {o : Offer} {s t : State} (hdir : s.pt.dir = .write) (hpos : 0 < s.pt.remaining)
    (hchunk : o.outChunk ≠ []) (h : pump o s = .next t) :
    ∃ run is', WriteRun s.is s.pt.remaining o.outChunk run is' ∧ TraceMoves s t run := by
  rcases pump_next h with ⟨h0, -⟩ | ⟨-, hread, -⟩ | ⟨-, -, h0, -⟩ | ⟨-, hread, -⟩
    | ⟨-, -, -, run, is', v, hrun, -, -, hend⟩
  · exact absurd h0 (Nat.ne_of_gt hpos)
  · cases hdir.symm.trans hread
  · exact absurd h0 hchunk
  · cases hdir.symm.trans hread
  · exact ⟨run, is', hrun, (hend.moves_run ⟨rfl, rfl, rfl, rfl⟩).2⟩

/-! ## The bytes of a pass -/

/-- Settles O38: the new events of the pass move the bytes of a run of the read loop, of which `ReadRun.facts` says
each clause. -/
theorem readPassPutsBytesInOrder : Obligations.ReadPassPutsBytesInOrder := by
  intro o s t hdir hpos hspace h
  obtain ⟨run, is', hrun, es, htrace, hes⟩ := pump_moves_readRun hdir hpos hspace h
  have f := hrun.facts
  refine ⟨es, htrace, ?_⟩
  rw [hes.put, hes.received, hes.taken, hes.sent]
  exact ⟨f.putLen, f.put, f.notRunning, f.allRun, f.taken, f.sent⟩

/-- Settles O39: the new events of the pass move the bytes of a run of the write loop, of which `WriteRun.facts` says
each clause. -/
theorem writePassTakesBytesInOrder : Obligations.WritePassTakesBytesInOrder := by
  intro o s t hdir hpos hchunk h
  obtain ⟨run, is', hrun, es, htrace, hes⟩ := pump_moves_writeRun hdir hpos hchunk h
  have f := hrun.facts
  refine ⟨es, htrace, ?_⟩
  rw [hes.put, hes.received, hes.taken, hes.sent]
  exact ⟨f.takenEq, f.sentPre, f.notRunning, f.allRun, f.put, f.recv⟩

end Sys2Proof.Machine
end

section
/-! PROOFS. Decoding and encoding of a request (spec/30_encoding.md R90 to R102): the two directions between commands
and bytes, the opcode bits of PERFORM_IO, and the operands a packet carries. -/

namespace Sys2Proof

/-! ## Bytes and packets -/

@[simp] theorem packetOfBytes_bytes (p : Packet) : packetOfBytes p.bytes = some p := rfl

/-- Only a packet's own eight bytes spell it (R90). -/
theorem bytes_of_packetOfBytes {bs : List Byte} {p : Packet} (h : packetOfBytes bs = some p) : p.bytes = bs := by
  unfold packetOfBytes at h
  split at h
  · cases h; rfl
  · cases h

@[simp] theorem decodeBytes_bytes (p : Packet) : decodeBytes p.bytes = decode p := rfl

/-- Bytes that decode are those of a packet that decodes. -/
theorem decodeBytes_ok {bs : List Byte} {i : Instr} (h : decodeBytes bs = .ok i) :
    ∃ p : Packet, p.bytes = bs ∧ decode p = .ok i := by
  unfold decodeBytes at h
  split at h
  · rename_i p hp; exact ⟨p, bytes_of_packetOfBytes hp, h⟩
  · cases h

/-- A packet holds nothing but its opcode byte and its operand fields (R90). -/
@[simp] theorem packetOf_bRequest_fields (p : Packet) : packetOf p.bRequest p.fields = p := by
  simp [packetOf, Packet.fields, Packet.wValue, Packet.wIndex, Packet.wLength]

/-! ## Commands and packets -/

theorem decode_encode (i : Instr) : decode (encode i) = .ok i := by
  cases i with
  | echo f => exact congrArg (Except.ok ∘ Instr.echo) (packetOf_fields _ f)
  | getCapabilities f => exact congrArg (Except.ok ∘ Instr.getCapabilities) (packetOf_fields _ f)
  | setDelay f => exact congrArg (Except.ok ∘ Instr.setDelay) (packetOf_fields _ f)
  | getStatus f => exact congrArg (Except.ok ∘ Instr.getStatus) (packetOf_fields _ f)
  | performIo f => exact congrArg (Except.ok ∘ Instr.performIo) (packetOf_fields _ f)
  | performIoBegin f => exact congrArg (Except.ok ∘ Instr.performIoBegin) (packetOf_fields _ f)
  | performIoEnd f => exact congrArg (Except.ok ∘ Instr.performIoEnd) (packetOf_fields _ f)
  | performIoBeginEnd f => exact congrArg (Except.ok ∘ Instr.performIoBeginEnd) (packetOf_fields _ f)

theorem encode_of_decode {p : Packet} {i : Instr} (h : decode p = .ok i) : encode i = p := by
  rcases decode_cases p with ⟨j, hj, hop, hfields⟩ | ⟨hj, -⟩
  · cases hj.symm.trans h
    rw [encode, hop, hfields, packetOf_bRequest_fields]
  · cases hj.symm.trans h

theorem decodeBytes_encode (i : Instr) : decodeBytes (encode i).bytes = .ok i := decode_encode i

/-- Settles O2: the encoded packet has the command's opcode and its fields' bytes, which decoding joins again. -/
theorem decodeInvertsEncode : Obligations.DecodeInvertsEncode := fun i => ⟨rfl, decodeBytes_encode i⟩

/-- Settles O3: the bytes are those of a packet, which its opcode and its fields determine. -/
theorem encodeInvertsDecode : Obligations.EncodeInvertsDecode := by
  intro bs i h
  obtain ⟨p, rfl, hp⟩ := decodeBytes_ok h
  rw [encode_of_decode hp]

/-- Settles O1: each request is the encoding of its command, and the last two are no command. -/
theorem specRequestsDecode : Obligations.SpecRequestsDecode :=
  ⟨decodeBytes_encode (.echo ⟨0xC1, 0x1234, 0x0000, 2⟩),
    decodeBytes_encode (.getCapabilities ⟨0xC1, 0x0000, 0x0000, 4⟩),
    decodeBytes_encode (.setDelay ⟨0x41, 3000, 0x0000, 0⟩),
    decodeBytes_encode (.getStatus ⟨0xC1, 0x0000, 0x0000, 1⟩),
    decodeBytes_encode (.performIo ⟨0x41, 0x0000, 0x0050, 1⟩),
    decodeBytes_encode (.performIoBegin ⟨0x41, 0x0000, 0x0050, 1⟩),
    decodeBytes_encode (.performIoEnd ⟨0xC1, 0x0001, 0x0050, 2⟩),
    decodeBytes_encode (.performIoBeginEnd ⟨0xC1, 0x0001, 0x0068, 10⟩),
    rfl, rfl⟩

end Sys2Proof

namespace Sys2Proof.Machine

/-! ## The opcode bits of PERFORM_IO -/

/-- The mask of R92 clears the low two bits of an opcode and keeps the high six. -/
theorem and_performIoMask (op : Byte) : op &&& 0xFC = op.extractLsb' 2 6 ++ 0#2 := by
  apply BitVec.eq_of_getLsbD_eq
  intro k hk
  have hmask : (0xFC : Byte).getLsbD k = decide (2 ≤ k) := by
    revert k; decide
  rw [BitVec.getLsbD_and, hmask, BitVec.getLsbD_append, BitVec.getLsbD_extractLsb']
  by_cases h2 : k < 2
  · simp [h2]
  · have hhigh : k - 2 < 6 := by omega
    have hback : 2 + (k - 2) = k := by omega
    simp [h2, hhigh, hback, Nat.le_of_not_lt h2]

theorem isPerformIo_iff (op : Byte) : isPerformIo op = true ↔ op &&& 0xFC = 0x04 := by
  have hmatch : (0x04 : Byte) = 1#6 ++ 0#2 := by decide
  rw [isPerformIo, beq_iff_eq, and_performIoMask, hmatch, BitVec.append_left_inj]
  rfl

@[simp] theorem beginFlag_performIoOf (b e : Bool) (f : Fields) : beginFlag (encode (.performIoOf b e f)) = b := by
  cases b <;> cases e <;> simp only [beginFlag, encode_bRequest, Instr.performIoOf, Instr.opcode] <;> decide

/-- Settles O5: the mask keeps the six bits that `isPerformIo` tests, and each form has its flags in the other two. -/
theorem performIoOpcodeBits : Obligations.PerformIoOpcodeBits :=
  ⟨isPerformIo_iff,
    fun b e f => ⟨isPerformIo_performIoOf b e f, beginFlag_performIoOf b e f, endFlag_performIoOf b e f⟩,
    isPerformIo_getCapabilities, isPerformIo_setDelay, isPerformIo_getStatus⟩

/-! ## The operands of a packet -/

theorem dirBit_eq (p : Packet) : dirBit p = BitVec.ofBool (p.wValue.getLsbD 0) := by
  apply BitVec.eq_of_getLsbD_eq
  intro k hk
  obtain rfl : k = 0 := by omega
  simp [dirBit]

/-- The wire address bit by bit (R94): the direction bit, then the slave address. -/
theorem addr8_getLsbD (p : Packet) {k : Nat} (hk : k < 8) :
    (addr8 p).getLsbD k = if k = 0 then p.wValue.getLsbD 0 else p.wIndex.getLsbD (k - 1) := by
  rw [addr8, dirBit_eq, BitVec.getLsbD_append]
  cases k with
  | zero => simp
  | succ k =>
    have hk7 : k < 7 := by omega
    simp [addr7, hk7]

/-- The shift and OR of R94 put the same bits on the wire. -/
theorem addr8_eq_shift_or (p : Packet) :
    addr8 p = ((addr7 p).setWidth 16 <<< 1 ||| (p.wValue &&& 1)).extractLsb' 0 8 := by
  apply BitVec.eq_of_getLsbD_eq
  intro k hk
  rw [addr8_getLsbD p hk]
  cases k with
  | zero => simp
  | succ k =>
    have hk7 : k < 7 := by omega
    have hk16 : k + 1 < 16 := by omega
    simp [addr7, hk, hk7, hk16, Nat.lt_of_succ_lt hk16]

theorem addr8_high (p : Packet) : (addr8 p).extractLsb' 1 7 = addr7 p := by
  apply BitVec.eq_of_getLsbD_eq
  intro k hk
  rw [BitVec.getLsbD_extractLsb', addr8_getLsbD p (by omega)]
  simp [addr7]

theorem addr8_low (p : Packet) : (addr8 p).getLsbD 0 = p.wValue.getLsbD 0 := addr8_getLsbD p (by decide)

/-- Settles O6: the three readings of the wire address have the same bits. -/
theorem wireAddressOfRequest : Obligations.WireAddressOfRequest := fun p =>
  ⟨rfl, addr8_eq_shift_or p, addr8_high p, addr8_low p⟩

theorem dirOf_eq_read (p : Packet) : dirOf p = .read ↔ p.wValue.getLsbD 0 = true := by
  rw [dirOf_eq]
  split <;> simp_all

/-- The delay is the two's-complement reading of `wValue` (R96). -/
theorem delayOf_eq (p : Packet) : delayOf p
    = if p.wValue.toNat < 32768 then (p.wValue.toNat : Int) else (p.wValue.toNat : Int) - 65536 := by
  rw [delayOf, BitVec.toInt_eq_toNat_cond]
  split <;> split <;> omega

/-- Settles O7: each operand is a reading of one field of the packet. -/
theorem transferOperandsOfRequest : Obligations.TransferOperandsOfRequest := fun p =>
  ⟨dirOf_eq_read p, rfl, lengthOf_le p, delayOf_eq p⟩

end Sys2Proof.Machine
end

section
/-! PROOFS. What a command reads of its request (spec/30_encoding.md R93, R99, R102, spec/43_command_dispatcher.md
R201), that it completes where the host keeps its contract (R190, R239), and the step that runs a placed word. -/

namespace Sys2Proof.Machine

/-! ## The step of a delivered request -/

theorem step_of_takeTurn_request {s u : State} {req : Request} (h : takeTurn s = (.request req, u)) :
    step s = dispatch req u := by
  simp [step, h]

theorem dispatch_of_decode {req : Request} {i : Instr} (h : decode req.packet = .ok i) (s : State) :
    dispatch req s = exec i (deliver req s) := by
  simp [dispatch, h]

theorem decodeTableWord_some {nbits w : Nat} {i : Instr} (h : decodeTableWord nbits w = some i) :
    decode (packetOfTable nbits w) = .ok i := by
  unfold decodeTableWord at h
  split at h
  · rename_i hd; cases h; exact hd
  · cases h

/-- Taking a placed request leaves the state it was placed in. -/
theorem takeTurn_placeRequest (req : Request) (s : State) : takeTurn (placeRequest req s) = (.request req, s) :=
  rfl

/-- Settles O11: the step takes the placed request and runs the command it decodes to. -/
theorem placedWordRunsNext : Obligations.PlacedWordRunsNext := by
  intro s nbits w i h
  have hstep := step_of_takeTurn_request (takeTurn_placeRequest (requestOfTable nbits w) s)
  exact hstep.trans (dispatch_of_decode (decodeTableWord_some h) s)

/-! ## What SET_DELAY does with the configurator's result -/

theorem setDelayWith_nonPositive {req : Request} (clock : Option ClockConfig) (s : State)
    (h : delayOf req.packet ≤ 0) : setDelayWith clock req s = .fault (.undefinedDelay req.packet.wValue) :=
  if_pos h

theorem setDelayWith_none {req : Request} (s : State) (h : ¬ delayOf req.packet ≤ 0) :
    setDelayWith none req s = unanswered req s :=
  if_neg h

theorem setDelayWith_some {req : Request} (c : ClockConfig) (s : State) (h : ¬ delayOf req.packet ≤ 0) :
    setDelayWith (some c) req s = applyClock c s :=
  if_neg h

/-! ## What answers when every bus primitive returns -/

/-- A sequence returns when its first part does, and its second part from there. -/
theorem andThen_returns {α β : Type} {P : α → Prop} {Q : β → Prop} {r : Result α} {k : α → Result β}
    (h : ∃ a, r = .next a ∧ P a) (hk : ∀ a, P a → ∃ b, k a = .next b ∧ Q b) :
    ∃ b, andThen r k = .next b ∧ Q b := by
  obtain ⟨a, rfl, ha⟩ := h
  exact hk a ha

theorem start_returns {s : State} (addr : Byte) (h : s.env.busLimit = none) :
    ∃ r, start addr s = .next r ∧ r.2.env.busLimit = none := by
  have hv : (takeStart s).2.env.busLimit = none := (takeStart_eq s).2.2.1.trans h
  refine ⟨_, start_unlimited addr h, ?_⟩
  cases (takeStart s).1 with
  | ack => exact hv
  | nak => exact hv

theorem ite_returns {α : Type} {P : α → Prop} {c : Prop} [Decidable c] {r r' : Result α}
    (h : ∃ a, r = .next a ∧ P a) (h' : ∃ a, r' = .next a ∧ P a) : ∃ a, (if c then r else r') = .next a ∧ P a := by
  split
  · exact h
  · exact h'

theorem busReset_returns {s : State} (h : s.env.busLimit = none) :
    ∃ t, busReset s = .next t ∧ t.env.busLimit = none :=
  andThen_returns (ite_returns (stop_returns h) ⟨s, rfl, h⟩) fun _ ht => ⟨_, rfl, ht⟩

theorem busSetClock_returns {s : State} (c : ClockConfig) (h : s.env.busLimit = none) :
    ∃ t, busSetClock c s = .next t ∧ t.env.busLimit = none :=
  andThen_returns ⟨s, busCall_unlimited _ h, h⟩ fun _ ht => ⟨_, rfl, ht⟩

theorem applyClock_returns {s : State} (c : ClockConfig) (h : s.env.busLimit = none) :
    ∃ t, applyClock c s = .next t ∧ t.env.busLimit = none :=
  andThen_returns (busReset_returns h) fun _ ht =>
    andThen_returns (busSetClock_returns c ht) fun _ hu => ⟨_, rfl, hu⟩

@[simp] theorem armOrAcknowledge_env (p : Packet) (s : State) : (armOrAcknowledge p s).env = s.env := by
  unfold armOrAcknowledge
  split <;> rfl

theorem performIo_returns {s : State} (req : Request) (h : s.env.busLimit = none) :
    ∃ t, performIo req s = .next t ∧ t.env.busLimit = none :=
  ite_returns ⟨_, rfl, h⟩ <|
    andThen_returns (start_returns (addr8 req.packet) h) fun _ hr =>
      andThen_returns (ite_returns ⟨_, rfl, hr⟩ (stop_returns hr)) fun t ht =>
        andThen_returns (ite_returns (stop_returns ht) ⟨t, rfl, ht⟩) fun u hu =>
          ⟨_, rfl, (congrArg Env.busLimit (armOrAcknowledge_env req.packet u)).trans hu⟩

/-! ## Completion -/

theorem opcode_echo_ne_setDelay : (0x00 : Byte) ≠ 0x02 := by decide
theorem opcode_getCapabilities_ne_setDelay : (0x01 : Byte) ≠ 0x02 := by decide
theorem opcode_getStatus_ne_setDelay : (0x03 : Byte) ≠ 0x02 := by decide

/-- A request that is neither PERFORM_IO nor SET_DELAY is admitted when no transfer is in flight (R206). -/
theorem admission_other_none {req : Request} {s : State} (h0 : s.pt.remaining = 0)
    (hio : isPerformIo req.packet.bRequest = false) (hdelay : req.packet.bRequest ≠ 0x02) :
    admission req s = none := by
  simp [admission_other s hio hdelay, h0]

theorem execSetDelay_completes {f : Fields} {s : State} (hl : f.wLength = 0) (hd : 0 < f.wValue.toInt)
    (h : s.env.busLimit = none) : ∃ t, execSetDelay f s = .next t := by
  have hadm : admission (requestOf (.setDelay f) s) s = none := by rw [admission_setDelay, if_pos hl]
  have hpos : ¬ delayOf (requestOf (.setDelay f) s).packet ≤ 0 := by
    rw [requestOf_packet, delayOf_encode]
    exact Int.not_le.mpr hd
  rw [execSetDelay, admitted_none hadm]
  cases computeClock (delayOf (requestOf (.setDelay f) s).packet) with
  | none => exact ⟨_, setDelayWith_none s hpos⟩
  | some c =>
    rw [setDelayWith_some c s hpos]
    exact (applyClock_returns c h).imp fun _ ht => ht.1

theorem exec_performIoOf_completes {b e : Bool} {f : Fields} {s : State} (h0 : s.pt.remaining = 0)
    (hdir : directionAgrees f s) (h : s.env.busLimit = none) : ∃ t, exec (.performIoOf b e f) s = .next t := by
  rw [exec_performIoOf]
  rcases admission_performIoOf b e f s with ⟨hpos, -⟩ | ⟨-, hndir, -⟩ | ⟨-, -, hadm⟩
  · exact absurd h0 (Nat.ne_of_gt hpos)
  · exact absurd hdir hndir
  · rw [admitted_none hadm]
    exact (performIo_returns _ h).imp fun _ ht => ht.1

/-- The host keeps its contract on a PERFORM_IO in one way for all four forms (R206, R208). -/
theorem hostKeepsContract_performIoOf (b e : Bool) (f : Fields) (s : State) :
    hostKeepsContract (.performIoOf b e f) s ↔ s.pt.remaining = 0 ∧ directionAgrees f s := by
  cases b <;> cases e <;> exact Iff.rfl

/-- Settles O31: the contract is what admits each command, and each bus primitive of its body returns. -/
theorem everyCommandCompletes : Obligations.EveryCommandCompletes := by
  intro i s hwf hcontract hlimit
  rcases instr_cases i with ⟨f, rfl⟩ | ⟨f, rfl⟩ | ⟨f, rfl⟩ | ⟨f, rfl⟩ | ⟨b, e, f, rfl⟩
  · exact ⟨_, admitted_none (admission_other_none hcontract isPerformIo_echo opcode_echo_ne_setDelay)⟩
  · exact ⟨_, admitted_none (admission_other_none hcontract isPerformIo_getCapabilities
      opcode_getCapabilities_ne_setDelay)⟩
  · exact ⟨_, admitted_none (admission_other_none hcontract isPerformIo_getStatus opcode_getStatus_ne_setDelay)⟩
  · obtain ⟨hl, hd⟩ : f.wLength = 0 ∧ 0 < f.wValue.toInt := by
      simpa [Instr.wellFormed, delayLengthOk, delayValueOk] using hwf
    exact execSetDelay_completes hl hd hlimit
  · obtain ⟨h0, hdir⟩ := (hostKeepsContract_performIoOf b e f s).mp hcontract
    exact exec_performIoOf_completes h0 hdir hlimit

/-! ## What a command reads of its request -/

/-- Two requests leave the same outcome when their admission and their bodies do, but for which request it was. -/
theorem eraseOutcome_admitted {req req' : Request} {s : State} {body body' : Result State}
    (hadm : (admission req s).map eraseFault = (admission req' s).map eraseFault)
    (hbody : eraseOutcome body = eraseOutcome body') :
    eraseOutcome (admitted req s body) = eraseOutcome (admitted req' s body') := by
  unfold admitted
  cases h : admission req s <;> cases h' : admission req' s <;> rw [h, h'] at hadm
  case none.none => exact hbody
  case some.some f f' => exact congrArg Host.Outcome.fault (Option.some.inj hadm)
  all_goals cases hadm

theorem eraseOutcome_unanswered (req req' : Request) (s : State) :
    eraseOutcome (unanswered req s) = eraseOutcome (unanswered req' s) := by
  simp [unanswered, eraseOutcome, eraseRequest]

/-- Only a transfer in flight keeps out a request that is neither PERFORM_IO nor SET_DELAY, whatever its fields
(R99, R206). -/
theorem eraseFault_admission_other {req req' : Request} (s : State)
    (hio : isPerformIo req.packet.bRequest = false) (hdelay : req.packet.bRequest ≠ 0x02)
    (hop : req'.packet.bRequest = req.packet.bRequest) :
    (admission req s).map eraseFault = (admission req' s).map eraseFault := by
  rw [admission_other s hio hdelay, admission_other s (hop ▸ hio) (hop ▸ hdelay)]
  split <;> rfl

theorem eraseFault_admission_setDelay {f g : Fields} (s : State) (hl : f.wLength = g.wLength) :
    (admission (requestOf (.setDelay f) s) s).map eraseFault
      = (admission (requestOf (.setDelay g) s) s).map eraseFault := by
  rw [admission_setDelay, admission_setDelay, hl]
  split <;> rfl

theorem opcode_performIoOf_beq (b e : Bool) (f : Fields) :
    ((Instr.performIoOf b e f).opcode == (0x02 : Byte)) = false :=
  beq_false_of_ne (opcode_performIoOf_ne b e f)

/-- PERFORM_IO is admitted by its direction bit and its length (R206, R208), and not by its flags (R201). -/
theorem eraseFault_admission_performIoOf {b b' e e' : Bool} {f g : Fields} (s : State) (h : sameIoFields f g) :
    (admission (requestOf (.performIoOf b e f) s) s).map eraseFault
      = (admission (requestOf (.performIoOf b' e' g) s) s).map eraseFault := by
  obtain ⟨hdir, -, hlen⟩ := h
  have hbroken : hostContractBroken (requestOf (.performIoOf b e f) s)
      = hostContractBroken (requestOf (.performIoOf b' e' g) s) := by
    simp only [hostContractBroken, requestOf_packet, requestOf_dataStage, encode_bRequest, encode_wLength, dirOf_encode,
      lengthOf_encode, performIoOf_fields, isPerformIo_performIoOf, opcode_performIoOf_beq, hdir, hlen]
  simp only [admission, requestOf_packet, encode_bRequest, isPerformIo_performIoOf, bne, opcode_performIoOf_beq,
    hbroken]
  split
  · rfl
  · split
    · rfl
    · split <;> rfl

/-- SET_DELAY reads nothing of its request but `wValue` once it is admitted (R93, R96). -/
theorem eraseOutcome_setDelayWith {req req' : Request} (clock : Option ClockConfig) (s : State)
    (h : req.packet.wValue = req'.packet.wValue) :
    eraseOutcome (setDelayWith clock req s) = eraseOutcome (setDelayWith clock req' s) := by
  have hdelay : delayOf req.packet = delayOf req'.packet := congrArg BitVec.toInt h
  by_cases hd : delayOf req'.packet ≤ 0
  · rw [setDelayWith_nonPositive clock s (hdelay ▸ hd), setDelayWith_nonPositive clock s hd, h]
  · cases clock with
    | none =>
      rw [setDelayWith_none s (hdelay ▸ hd), setDelayWith_none s hd]
      exact eraseOutcome_unanswered req req' s
    | some c => rw [setDelayWith_some c s (hdelay ▸ hd), setDelayWith_some c s hd]

theorem addr8_congr {p q : Packet} (hdir : p.wValue.getLsbD 0 = q.wValue.getLsbD 0)
    (haddr : p.wIndex.extractLsb' 0 7 = q.wIndex.extractLsb' 0 7) : addr8 p = addr8 q := by
  rw [addr8, addr8, dirBit_eq, dirBit_eq, hdir, addr7, addr7, haddr]

/-- PERFORM_IO reads the wire address, END, the length and the direction of its request once it is admitted (R93,
R199). -/
theorem eraseOutcome_performIo {req req' : Request} (s : State) (haddr : addr8 req.packet = addr8 req'.packet)
    (hend : endFlag req.packet = endFlag req'.packet) (hlen : lengthOf req.packet = lengthOf req'.packet)
    (hdir : dirOf req.packet = dirOf req'.packet) :
    eraseOutcome (performIo req s) = eraseOutcome (performIo req' s) := by
  have harm : armOrAcknowledge req.packet = armOrAcknowledge req'.packet := by
    funext u
    simp only [armOrAcknowledge, deferStopOf, hend, hlen, hdir]
  rw [performIo, performIo, haddr, hend, hlen, harm]
  split
  · exact eraseOutcome_unanswered req req' s
  · rfl

/-- Commands that agree on what the block reads are of one kind; two forms of PERFORM_IO then have the same END flag. -/
theorem sameUsed_cases {i j : Instr} (h : sameUsed i j) :
    (∃ f g, i = .echo f ∧ j = .echo g ∧ f.wValue = g.wValue)
      ∨ (∃ f g, i = .getCapabilities f ∧ j = .getCapabilities g)
      ∨ (∃ f g, i = .getStatus f ∧ j = .getStatus g)
      ∨ (∃ f g, i = .setDelay f ∧ j = .setDelay g ∧ f.wValue = g.wValue ∧ f.wLength = g.wLength)
      ∨ ∃ b b' e f g, i = .performIoOf b e f ∧ j = .performIoOf b' e g ∧ sameIoFields f g := by
  unfold sameUsed at h
  split at h
  · exact .inl ⟨_, _, rfl, rfl, h⟩
  · exact .inr (.inl ⟨_, _, rfl, rfl⟩)
  · exact .inr (.inr (.inl ⟨_, _, rfl, rfl⟩))
  · exact .inr (.inr (.inr (.inl ⟨_, _, rfl, rfl, h⟩)))
  · exact .inr (.inr (.inr (.inr ⟨false, false, false, _, _, rfl, rfl, h⟩)))
  · exact .inr (.inr (.inr (.inr ⟨false, true, false, _, _, rfl, rfl, h⟩)))
  · exact .inr (.inr (.inr (.inr ⟨true, false, false, _, _, rfl, rfl, h⟩)))
  · exact .inr (.inr (.inr (.inr ⟨true, true, false, _, _, rfl, rfl, h⟩)))
  · exact .inr (.inr (.inr (.inr ⟨false, false, true, _, _, rfl, rfl, h⟩)))
  · exact .inr (.inr (.inr (.inr ⟨false, true, true, _, _, rfl, rfl, h⟩)))
  · exact .inr (.inr (.inr (.inr ⟨true, false, true, _, _, rfl, rfl, h⟩)))
  · exact .inr (.inr (.inr (.inr ⟨true, true, true, _, _, rfl, rfl, h⟩)))
  · exact h.elim

theorem eraseOutcome_execEcho {f g : Fields} (s : State) (h : f.wValue = g.wValue) :
    eraseOutcome (execEcho f s) = eraseOutcome (execEcho g s) := by
  refine eraseOutcome_admitted (eraseFault_admission_other s isPerformIo_echo opcode_echo_ne_setDelay rfl) ?_
  simp only [requestOf_packet, encode_wValue, Instr.fields, h]

theorem eraseOutcome_execSetDelay {f g : Fields} (s : State) (hv : f.wValue = g.wValue) (hl : f.wLength = g.wLength) :
    eraseOutcome (execSetDelay f s) = eraseOutcome (execSetDelay g s) := by
  refine eraseOutcome_admitted (eraseFault_admission_setDelay s hl) ?_
  simp only [requestOf_packet, delayOf_encode, Instr.fields, hv]
  exact eraseOutcome_setDelayWith _ s (by simpa [Instr.fields] using hv)

/-- PERFORM_IO does the same with and without BEGIN (R201), and for all fields that agree on what it uses (R93). -/
theorem eraseOutcome_exec_performIoOf {b b' e : Bool} {f g : Fields} (s : State) (h : sameIoFields f g) :
    eraseOutcome (exec (.performIoOf b e f) s) = eraseOutcome (exec (.performIoOf b' e g) s) := by
  rw [exec_performIoOf, exec_performIoOf]
  refine eraseOutcome_admitted (eraseFault_admission_performIoOf s h) ?_
  obtain ⟨hdir, haddr, hlen⟩ := h
  apply eraseOutcome_performIo
  · exact addr8_congr (by simpa only [requestOf_packet, encode_wValue, performIoOf_fields] using hdir)
      (by simpa using haddr)
  · simp
  · simp [hlen]
  · simp only [requestOf_packet, dirOf_encode, performIoOf_fields, hdir]

/-- Settles O29: each kind of command reads of its request only the fields on which the two agree. -/
theorem unreadFieldsChangeNothing : Obligations.UnreadFieldsChangeNothing := by
  intro i j s h
  rcases sameUsed_cases h with ⟨f, g, rfl, rfl, hv⟩ | ⟨f, g, rfl, rfl⟩ | ⟨f, g, rfl, rfl⟩
    | ⟨f, g, rfl, rfl, hv, hl⟩ | ⟨b, b', e, f, g, rfl, rfl, hio⟩
  · exact eraseOutcome_execEcho s hv
  · exact eraseOutcome_admitted
      (eraseFault_admission_other s isPerformIo_getCapabilities opcode_getCapabilities_ne_setDelay rfl) rfl
  · exact eraseOutcome_admitted
      (eraseFault_admission_other s isPerformIo_getStatus opcode_getStatus_ne_setDelay rfl) rfl
  · exact eraseOutcome_execSetDelay s hv hl
  · exact eraseOutcome_exec_performIoOf s hio

end Sys2Proof.Machine
end

section
/-! PROOFS. The Clock Configurator (spec/40_clock_configurator.md R120 to R126): the tier it chooses, when it fails, and
the range of the target frequency. -/

namespace Sys2Proof.Machine

/-! ## The order of the search -/

theorem mem_tierOrder (t : Tier) : t ∈ tierOrder := by
  cases t <;> decide

theorem tierOrder_ascending : tierOrder.Pairwise (fun t u => t.value < u.value) := by decide

/-- The search is ascending (R122), so every smaller tier is tried before a given one. -/
theorem mem_before_of_value_lt {before after : List Tier} {t u : Tier} (hsplit : tierOrder = before ++ u :: after)
    (hlt : t.value < u.value) : t ∈ before := by
  have hmem := mem_tierOrder t
  have hasc := tierOrder_ascending
  rw [hsplit] at hmem hasc
  rcases List.mem_append.mp hmem with hbefore | hmem
  · exact hbefore
  · obtain ⟨_, hascRest, _⟩ := List.pairwise_append.mp hasc
    obtain ⟨hafter, _⟩ := List.pairwise_cons.mp hascRest
    rcases List.mem_cons.mp hmem with rfl | hmem
    · exact absurd hlt (Nat.lt_irrefl _)
    · exact absurd (hafter t hmem) (Nat.lt_asymm hlt)

/-! ## The chosen tier and the failure -/

/-- An accepted divider value fits the 8-bit register, so that its byte stands for it exactly (R123). -/
theorem toNat_ofInt_of_accepted {b : Int} (h : acceptsDivider b = true) : ((BitVec.ofInt 8 b).toNat : Int) = b := by
  obtain ⟨hlo, hhi⟩ := (acceptsDivider_iff b).mp h
  rw [BitVec.toNat_ofInt]
  omega

/-- Settles O21: the search is ascending, so every smaller tier stands before the one found and was rejected. -/
theorem computeClockPicksSmallestTier : Obligations.ComputeClockPicksSmallestTier := by
  intro formula delay c h
  obtain ⟨before, after, hsplit, hrejected, haccepted, hvalue⟩ := firstTier_some h
  refine ⟨?_, fun t hlt hrange => ?_⟩
  · rw [hvalue]
    exact toNat_ofInt_of_accepted haccepted
  · have hrej := hrejected t (mem_before_of_value_lt hsplit hlt)
    exact Bool.eq_false_iff.mp hrej ((acceptsDivider_iff _).mpr hrange)

/-- Settles O22: the search fails when it rejects every tier it tries (R124), and it tries them all (R122). -/
theorem invalidDelayWhenEveryTierFails : Obligations.InvalidDelayWhenEveryTierFails := by
  refine ⟨fun formula delay => ?_, fun _ => rfl⟩
  calc computeClockWith formula delay = none
      ↔ ∀ t ∈ tierOrder, acceptsDivider (formula t (targetFrequency delay)) = false := firstTier_none
    _ ↔ ∀ t, formula t (targetFrequency delay) < 0 ∨ 255 < formula t (targetFrequency delay) := by
      simp only [mem_tierOrder, true_imp_iff, acceptsDivider_eq_false]

/-! ## The target frequency -/

/-- The dividend is not negative, so truncation toward zero (R121) is Lean's integer division. -/
theorem targetFrequency_eq_ediv (delay : Int) : targetFrequency delay = 1000000 / delay :=
  Int.tdiv_eq_ediv_of_nonneg (by decide)

/-- Settles O23: the bounds are those of the floor of a quotient by a divisor in 1..32767. -/
theorem targetFrequencyBounds : Obligations.TargetFrequencyBounds := by
  intro delay hpos hmax
  have hdelay : 0 < delay := by omega
  rw [targetFrequency_eq_ediv]
  refine ⟨?_, ?_, ?_, ?_⟩
  · exact (Int.le_ediv_iff_mul_le hdelay).mpr (by omega)
  · exact Int.ediv_le_self delay (by decide)
  · exact Int.ediv_mul_le _ (Int.ne_of_gt hdelay)
  · exact Int.lt_ediv_add_one_mul_self _ hdelay

end Sys2Proof.Machine
end

section
/-! PROOFS. The Bus Transaction Controller (spec/41_bus_transaction_controller.md R140 to R148) and the PERFORM_IO that
runs on it (spec/43_command_dispatcher.md R199 to R204), what a step can stop with (R190, R232, R233), and that nothing
recorded is undone (R148). -/

namespace Sys2Proof.Machine

/-! ## stop() -/

theorem is_of_stop_next {s t : State} (h : stop s = .next t) : t.is = .idle := by
  rcases stop_next h with ⟨hi, rfl⟩ | ⟨-, v, rfl, -⟩
  · exact hi
  · rfl

/-- `stop` is idempotent (R143), also where a bus primitive never returns. -/
theorem stop_stop (s : State) : andThen (stop s) stop = stop s := by
  cases h : stop s with
  | next t => exact stop_idle (is_of_stop_next h)
  | fault f => rfl
  | refused f => rfl

/-- Settles O33: a stop of a bus that is not idle is one event, and after any stop the bus is idle. -/
theorem stopTwiceStopsOnce : Obligations.StopTwiceStopsOnce := by
  intro s hl
  refine ⟨?_, stop_stop s⟩
  split <;> rename_i hi
  · exact stop_idle hi
  · exact stop_unlimited hl hi

/-! ## start() -/

theorem start_of_ack {s : State} (addr : Byte) (hl : s.env.busLimit = none) (ha : (takeStart s).1 = .ack) :
    start addr s = .next (true, ackedState addr (takeStart s).2.env s) := by
  rw [start_unlimited addr hl, ha]

theorem start_of_nak {s : State} (addr : Byte) (hl : s.env.busLimit = none) (hn : (takeStart s).1 = .nak) :
    start addr s = .next (false, nakedState addr (takeStart s).2.env s) := by
  rw [start_unlimited addr hl, hn]

/-- Settles O34: `start` leaves the state of its answer, and that of a NAK is idle. -/
theorem startTracksAcknowledge : Obligations.StartTracksAcknowledge := by
  intro addr s hl
  refine ⟨start_of_ack addr hl, fun hn => ⟨_, start_of_nak addr hl hn, stop_idle rfl, ?_⟩⟩
  simp [nakedState, State.record, State.writeEnv, State.writeIs, State.writeTs]

/-! ## reset() -/

theorem busReset_of_released {s : State} (h : s.is = .unconfigured ∨ s.is = .idle) :
    busReset s = .next (s.writePt .empty) := by
  have hn : ¬ (s.is ≠ .unconfigured ∧ s.is ≠ .idle) := by simpa [Decidable.or_iff_not_imp_left] using h
  rw [busReset, if_neg hn, andThen_next]

theorem busReset_of_busy {s : State} (h : ¬ (s.is = .unconfigured ∨ s.is = .idle)) :
    busReset s = andThen (stop s) fun s => .next (s.writePt .empty) := by
  rw [busReset, if_pos (not_or.mp h)]

/-- Settles O35: a bus that is neither unconfigured nor idle is stopped, and in both cases only the transfer is
emptied. -/
theorem busResetDiscardsTransfer : Obligations.BusResetDiscardsTransfer := by
  intro s hl
  by_cases h : s.is = .unconfigured ∨ s.is = .idle
  · rw [busReset_of_released h]
    rcases h with h | h <;> simp [h, State.writePt, PendingTransfer.empty]
  · obtain ⟨hu, hi⟩ := not_or.mp h
    rw [busReset_of_busy h, stop_unlimited hl hi]
    simp [hu, hi, State.record, State.writeIs, State.writePt, PendingTransfer.empty]

/-! ## PERFORM_IO -/

/-- An admitted PERFORM_IO is `performIo` of its request (R206, R208). -/
theorem exec_performIoOf_of_admitted {b e : Bool} {f : Fields} {s : State} (h0 : s.pt.remaining = 0)
    (hdir : directionAgrees f s) :
    exec (.performIoOf b e f) s = performIo (requestOf (.performIoOf b e f) s) s := by
  rw [exec_performIoOf]
  rcases admission_performIoOf b e f s with ⟨hpos, -⟩ | ⟨-, hndir, -⟩ | ⟨-, -, hadm⟩
  · exact absurd h0 (Nat.ne_of_gt hpos)
  · exact absurd hdir hndir
  · exact admitted_none hadm

theorem armOrAcknowledge_of_empty {p : Packet} (h : lengthOf p = 0) (s : State) :
    armOrAcknowledge p s = s.record .usbStatusStage := by
  simp [armOrAcknowledge, h]

theorem armOrAcknowledge_of_data {p : Packet} (h : lengthOf p ≠ 0) (s : State) :
    armOrAcknowledge p s = s.writePt ⟨dirOf p, lengthOf p, endFlag p⟩ := by
  simp [armOrAcknowledge, deferStopOf, Nat.pos_of_ne_zero h]

/-- An acknowledged PERFORM_IO stops the bus in its own step only for a zero length with END (R202). -/
theorem performIo_of_ack {req : Request} {s : State} (hts : s.ts ≠ .unconfigured) (hl : s.env.busLimit = none)
    (ha : (takeStart s).1 = .ack) :
    performIo req s = .next (ioAcked req.packet (takeStart s).2.env s) := by
  rw [performIo, if_neg hts, start_of_ack _ hl ha, andThen_next, if_pos rfl, andThen_next]
  by_cases h0 : lengthOf req.packet = 0
  · cases he : endFlag req.packet with
    | false =>
      rw [if_neg (by simp), andThen_next, armOrAcknowledge_of_empty h0]
      simp [ioAcked, h0, he, ackedState, State.record, State.writeEnv, State.writeIs, State.writeTs]
    | true =>
      have hleft : (ackedState (addr8 req.packet) (takeStart s).2.env s).env.busLimit = none :=
        (takeStart_eq s).2.2.1.trans hl
      have hrunning : (ackedState (addr8 req.packet) (takeStart s).2.env s).is ≠ .idle := InternalStatus.noConfusion
      rw [if_pos ⟨rfl, h0⟩, stop_unlimited hleft hrunning, andThen_next, armOrAcknowledge_of_empty h0]
      simp [ioAcked, h0, he, ackedState, State.record, State.writeEnv, State.writeIs, State.writeTs]
  · rw [if_neg (fun h => h0 h.2), andThen_next, armOrAcknowledge_of_data h0]
    simp [ioAcked, h0, ackedState, State.record, State.writeEnv, State.writeIs, State.writeTs, State.writePt]

/-- A PERFORM_IO that gets no acknowledge has stopped the bus in `start`, so its own stops issue nothing (R142,
R204). -/
theorem performIo_of_nak {req : Request} {s : State} (hts : s.ts ≠ .unconfigured) (hl : s.env.busLimit = none)
    (hn : (takeStart s).1 = .nak) :
    performIo req s = .next (ioNaked req.packet (takeStart s).2.env s) := by
  have hidle : stop (nakedState (addr8 req.packet) (takeStart s).2.env s)
      = .next (nakedState (addr8 req.packet) (takeStart s).2.env s) := stop_idle rfl
  rw [performIo, if_neg hts, start_of_nak _ hl hn]
  simp only [andThen_next, Bool.false_eq_true, hidle, ite_self]
  by_cases h0 : lengthOf req.packet = 0
  · rw [armOrAcknowledge_of_empty h0]
    simp [ioNaked, h0, nakedState, State.record, State.writeEnv, State.writeIs, State.writeTs]
  · rw [armOrAcknowledge_of_data h0]
    simp [ioNaked, h0, nakedState, State.record, State.writeEnv, State.writeIs, State.writeTs, State.writePt]

theorem addr8_encode (i : Instr) :
    addr8 (encode i) = i.fields.wIndex.extractLsb' 0 7 ++ i.fields.wValue.extractLsb' 0 1 := by
  rw [addr8, addr7, dirBit, encode_wIndex, encode_wValue]

theorem wLength_toNat_eq_zero (f : Fields) : f.wLength.toNat = 0 ↔ f.wLength = 0 := by
  rw [← BitVec.toNat_inj]
  rfl

/-- Settles O25: the state of an acknowledged PERFORM_IO, read off the fields of its command. -/
theorem acknowledgedIoArmsOrCompletes : Obligations.AcknowledgedIoArmsOrCompletes := by
  intro b e f s hts h0 hdir hl ha
  rw [exec_performIoOf_of_admitted h0 hdir, performIo_of_ack hts hl ha]
  simp only [ioAcked, requestOf_packet, addr8_encode, endFlag_performIoOf, dirOf_encode, lengthOf_encode,
    performIoOf_fields, wLength_toNat_eq_zero]

/-- Settles O26: the state of a PERFORM_IO that got no acknowledge, read off the fields of its command. -/
theorem nakedIoStopsOnceAndStillArms : Obligations.NakedIoStopsOnceAndStillArms := by
  intro b e f s hts h0 hdir hl hn
  rw [exec_performIoOf_of_admitted h0 hdir, performIo_of_nak hts hl hn]
  simp only [ioNaked, requestOf_packet, addr8_encode, endFlag_performIoOf, dirOf_encode, lengthOf_encode,
    performIoOf_fields, wLength_toNat_eq_zero]
  split <;> simp [*]

/-! ## What a pass stops with -/

theorem complete_returns {s : State} (h : s.env.busLimit = none) :
    ∃ t, complete s = .next t ∧ t.env.busLimit = none := by
  have hc : (collapseFailure s).env.busLimit = none := by rw [collapseFailure_eq]; exact h
  refine andThen_returns (ite_returns (stop_returns hc) ⟨_, rfl, hc⟩) fun t ht => ⟨_, rfl, ?_⟩
  split <;> exact ht

theorem endPass_returns {s : State} (h : s.env.busLimit = none) :
    ∃ t, endPass s = .next t ∧ t.env.busLimit = none :=
  ite_returns (complete_returns h) ⟨_, rfl, h⟩

theorem readOffer_returns {s : State} (space : Nat) (h : s.env.busLimit = none) :
    ∃ t, readOffer space s = .next t ∧ t.env.busLimit = none :=
  ite_returns ⟨s, rfl, h⟩ (andThen_returns (readPass_returns space h) fun _ ht => endPass_returns ht)

theorem writeOffer_returns {s : State} (chunk : List Byte) (h : s.env.busLimit = none) :
    ∃ t, writeOffer chunk s = .next t ∧ t.env.busLimit = none :=
  ite_returns ⟨s, rfl, h⟩ (andThen_returns (writePass_returns chunk h) fun _ ht => endPass_returns ht)

theorem pump_returns {s : State} (o : Offer) (h : s.env.busLimit = none) :
    ∃ t, pump o s = .next t ∧ t.env.busLimit = none := by
  refine ite_returns ⟨s, rfl, h⟩ ?_
  cases s.pt.dir with
  | read => exact readOffer_returns o.inSpace h
  | write => exact writeOffer_returns o.outChunk h

/-! ## The causes of a fault -/

/-- The operation is never refused, and each of its faults is one that `C` allows. -/
structure StopsOnlyFor {α : Type} (C : Fault → Prop) (r : Result α) : Prop where
  notRefused : ∀ q : Refusal, r ≠ .refused q
  cause : ∀ f : Fault, r = .fault f → C f

theorem StopsOnlyFor.next {α : Type} {C : Fault → Prop} (a : α) : StopsOnlyFor C (.next a : Result α) where
  notRefused q h := by cases h
  cause f h := by cases h

theorem StopsOnlyFor.fault {α : Type} {C : Fault → Prop} {f : Fault} (hf : C f) :
    StopsOnlyFor C (.fault f : Result α) where
  notRefused q h := by cases h
  cause g h := by cases h; exact hf

/-- An operation of the bus controller or of the pump stops only where a bus primitive never returns (R233). -/
theorem AnswersOrSticks.stopsOnlyFor {α : Type} {C : Fault → Prop} {P : α → Prop} {r : Result α} {s : State}
    (h : AnswersOrSticks r) (hreturns : s.env.busLimit = none → ∃ a, r = .next a ∧ P a)
    (hC : ∀ p, s.env.busLimit ≠ none → C (.busNeverReturns p)) : StopsOnlyFor C r := by
  rcases h with ⟨a, rfl⟩ | ⟨p, rfl⟩
  · exact .next a
  · refine .fault (hC p fun hl => ?_)
    obtain ⟨a, ha, -⟩ := hreturns hl
    cases ha

theorem StopsOnlyFor.admitted {C : Fault → Prop} {req : Request} {s : State} {body : Result State}
    (hadm : ∀ f, admission req s = some f → C f) (hbody : StopsOnlyFor C body) :
    StopsOnlyFor C (admitted req s body) := by
  cases h : admission req s with
  | none => rwa [admitted_none h]
  | some f => rw [admitted_some h]; exact .fault (hadm f h)

/-- The opcode is one of PERFORM_IO's four (R92). -/
abbrev IoOpcode (op : Byte) : Prop := 4 ≤ op.toNat ∧ op.toNat ≤ 7

theorem isPerformIo_iff_ioOpcode (op : Byte) : isPerformIo op = true ↔ IoOpcode op := by
  have hlt : op.toNat < 256 := op.isLt
  rw [isPerformIo, beq_iff_eq, ← BitVec.toNat_inj, BitVec.extractLsb'_toNat, Nat.shiftRight_eq_div_pow, IoOpcode]
  change op.toNat / 4 % 64 = 1 ↔ _
  omega

/-- The host broke its contract with this request (R232), delivered with
`remaining` bytes of a transfer to move: it did not wait for that transfer (R206), it ran the
data stage of a PERFORM_IO the wrong way (R208), or it gave a SET_DELAY a data stage (R209). -/
inductive ContractBroken (req : Request) (remaining : Nat) : Prop
  | overlap (hpos : 0 < remaining) (hdelay : req.packet.bRequest ≠ 0x02) (hio : ¬ IoOpcode req.packet.bRequest)
  | direction (h0 : remaining = 0) (hio : IoOpcode req.packet.bRequest) (hl : req.packet.wLength ≠ 0)
      (hdir : req.dataStage ≠ dirOf req.packet)
  | delayStage (hdelay : req.packet.bRequest = 0x02) (hl : req.packet.wLength ≠ 0)

/-- The cause of each fault of a request delivered in this state (R232, R233). -/
def RequestCause (req : Request) (s : State) : Fault → Prop
  | .undefinedDelay v => req.packet.bRequest = 0x02 ∧ req.packet.wValue = v ∧ v.toInt ≤ 0
  | .overlappingTransfer r => r = req ∧ 0 < s.pt.remaining ∧ IoOpcode req.packet.bRequest
  | .hostProtocolViolation r => r = req ∧ ContractBroken req s.pt.remaining
  | .busNeverReturns _ => s.env.busLimit ≠ none

theorem hostContractBroken_cause {req : Request} {s : State}
    (hio : ¬ (0 < s.pt.remaining ∧ IoOpcode req.packet.bRequest)) (h : hostContractBroken req = true) :
    ContractBroken req s.pt.remaining := by
  simp only [hostContractBroken, Bool.or_eq_true, Bool.and_eq_true, decide_eq_true_eq, bne_iff_ne, beq_iff_eq,
    isPerformIo_iff_ioOpcode] at h
  rcases h with ⟨⟨hop, hlen⟩, hdir⟩ | ⟨hdelay, hl⟩
  · refine .direction (Nat.eq_zero_of_not_pos fun hpos => hio ⟨hpos, hop⟩) hop (fun hl => ?_) hdir
    simp [lengthOf, hl] at hlen
  · exact .delayStage hdelay hl

theorem admission_cause {req : Request} {s : State} {f : Fault} (h : admission req s = some f) :
    RequestCause req s f := by
  unfold admission at h
  simp only [Bool.and_eq_true, bne_iff_ne, inFlight_iff, isPerformIo_iff_ioOpcode] at h
  split at h
  case isTrue hover => cases h; exact ⟨rfl, hover⟩
  case isFalse hio =>
    split at h
    case isTrue hover => cases h; exact ⟨rfl, .overlap hover.1 hover.2 fun hop => hio ⟨hover.1, hop⟩⟩
    case isFalse =>
      split at h
      case isTrue hbroken => cases h; exact ⟨rfl, hostContractBroken_cause hio hbroken⟩
      case isFalse => cases h

theorem setDelayWith_stopsOnlyFor {req : Request} (clock : Option ClockConfig) (s : State)
    (hop : req.packet.bRequest = 0x02) : StopsOnlyFor (RequestCause req s) (setDelayWith clock req s) := by
  by_cases hd : delayOf req.packet ≤ 0
  · rw [setDelayWith_nonPositive clock s hd]
    exact .fault ⟨hop, rfl, hd⟩
  · cases clock with
    | none => rw [setDelayWith_none s hd]; exact .next _
    | some c =>
      rw [setDelayWith_some c s hd]
      exact (applyClock_answersOrSticks c s).stopsOnlyFor (applyClock_returns c) fun _ hl => hl

theorem performIo_stopsOnlyFor (req : Request) (s : State) :
    StopsOnlyFor (RequestCause req s) (performIo req s) :=
  (performIo_answersOrSticks req s).stopsOnlyFor (performIo_returns req) fun _ hl => hl

theorem exec_stopsOnlyFor (i : Instr) (s : State) : StopsOnlyFor (RequestCause (requestOf i s) s) (exec i s) := by
  rcases instr_cases i with ⟨f, rfl⟩ | ⟨f, rfl⟩ | ⟨f, rfl⟩ | ⟨f, rfl⟩ | ⟨b, e, f, rfl⟩
  · exact .admitted (fun _ => admission_cause) (.next _)
  · exact .admitted (fun _ => admission_cause) (.next _)
  · exact .admitted (fun _ => admission_cause) (.next _)
  · exact .admitted (fun _ => admission_cause) (setDelayWith_stopsOnlyFor _ s rfl)
  · rw [exec_performIoOf]
    exact .admitted (fun _ => admission_cause) (performIo_stopsOnlyFor _ s)

/-- The delivered request is the one its command came from (R190). -/
theorem requestOf_deliver {req : Request} {i : Instr} (h : decode req.packet = .ok i) (s : State) :
    requestOf i (deliver req s) = req := by
  rw [requestOf, encode_of_decode h]
  rfl

theorem dispatch_stopsOnlyFor (req : Request) (s : State) : StopsOnlyFor (RequestCause req s) (dispatch req s) := by
  cases h : decode req.packet with
  | ok i =>
    rw [dispatch_of_decode h]
    have hstops := exec_stopsOnlyFor i (deliver req s)
    rwa [requestOf_deliver h] at hstops
  | error _ =>
    simp only [dispatch, h]
    exact .admitted (s := deliver req s) (fun _ => admission_cause) (.next _)

/-- Settles O59: a Dispatcher step faults on admission, for its delay or at a bus call, and a pass only at a bus
call. -/
theorem stepStopsOnlyForItsCauses : Obligations.StepStopsOnlyForItsCauses := by
  intro s
  rcases step_cases s with ⟨req, v, hturn, hstep, hlimit⟩ | ⟨o, v, hturn, hstep, hlimit⟩ <;> rw [hstep, hturn]
  · have hstops := dispatch_stopsOnlyFor req (s.writeEnv v)
    refine ⟨hstops.notRefused, fun r hr => ?_⟩
    have hcause := hstops.cause r hr
    cases r with
    | undefinedDelay w => exact ⟨req, rfl, hcause⟩
    | overlappingTransfer r => obtain ⟨rfl, hcause⟩ := hcause; exact ⟨rfl, hcause⟩
    | hostProtocolViolation r =>
      obtain ⟨rfl, hbroken⟩ := hcause
      refine ⟨rfl, ?_⟩
      cases hbroken with
      | overlap hpos hdelay hio => exact .inl ⟨hpos, hdelay, hio⟩
      | direction h0 hio hl hdir => exact .inr (.inl ⟨h0, hio.1, hio.2, hl, hdir⟩)
      | delayStage hdelay hl => exact .inr (.inr ⟨hdelay, hl⟩)
    | busNeverReturns p => exact hlimit ▸ hcause
  · have hstops : StopsOnlyFor (fun f => (∃ p, f = .busNeverReturns p) ∧ v.busLimit ≠ none)
        (pump o (s.writeEnv v)) :=
      (pump_answersOrSticks o (s.writeEnv v)).stopsOnlyFor (pump_returns o) fun p hl => ⟨⟨p, rfl⟩, hl⟩
    refine ⟨hstops.notRefused, fun r hr => ?_⟩
    obtain ⟨⟨p, rfl⟩, hl⟩ := hstops.cause r hr
    exact hlimit ▸ hl

/-! ## A bus call that never returns -/

section Exhausted
variable {s : State} (h : s.env.busLimit = some 0)
include h

theorem start_exhausted (addr : Byte) : start addr s = .fault (.busNeverReturns .start) := by
  rw [start, busStart, busCall_exhausted _ h, andThen_fault, andThen_fault]

theorem stop_exhausted (hi : s.is ≠ .idle) : stop s = .fault (.busNeverReturns .stop) := by
  rw [stop, if_neg hi, busStop, busCall_exhausted _ h, andThen_fault, andThen_fault]

theorem busSetClock_exhausted (c : ClockConfig) : busSetClock c s = .fault (.busNeverReturns .setClock) := by
  rw [busSetClock, busCall_exhausted _ h, andThen_fault]

theorem performIo_exhausted (req : Request) (hts : s.ts ≠ .unconfigured) :
    performIo req s = .fault (.busNeverReturns .start) := by
  rw [performIo, if_neg hts, start_exhausted h, andThen_fault]

theorem applyClock_exhausted (c : ClockConfig) : applyClock c s = .fault (.busNeverReturns
    (if s.is = .unconfigured ∨ s.is = .idle then .setClock else .stop)) := by
  rw [applyClock]
  by_cases hi : s.is = .unconfigured ∨ s.is = .idle
  · rw [busReset_of_released hi, andThen_next, busSetClock_exhausted (s := s.writePt .empty) h, andThen_fault,
      if_pos hi]
  · rw [busReset_of_busy hi, stop_exhausted h (not_or.mp hi).2, andThen_fault, andThen_fault, if_neg hi]

theorem receiveOrFill_exhausted (hrun : s.is = .running) :
    receiveOrFill s = .fault (.busNeverReturns .recv) := by
  rw [receiveOrFill, if_pos hrun, busRecv, busCall_exhausted _ h, andThen_fault, andThen_fault]

theorem sendOrDiscard_exhausted (b : Byte) (hrun : s.is = .running) :
    sendOrDiscard b s = .fault (.busNeverReturns .send) := by
  rw [sendOrDiscard, if_pos hrun, busSend, busCall_exhausted _ h, andThen_fault, andThen_fault]

theorem readPass_exhausted {space : Nat} (hrun : s.is = .running) (hrem : s.pt.remaining ≠ 0) (hspace : space ≠ 0) :
    readPass space s = .fault (.busNeverReturns .recv) := by
  obtain ⟨n, rfl⟩ := Nat.exists_eq_succ_of_ne_zero hspace
  rw [readPass, if_neg hrem, readByte,
    receiveOrFill_exhausted (s := (s.record (.usbInSpace (n + 1))).countDown) h hrun, andThen_fault]

theorem writePass_exhausted {chunk : List Byte} (hrun : s.is = .running) (hrem : s.pt.remaining ≠ 0)
    (hchunk : chunk ≠ []) : writePass chunk s = .fault (.busNeverReturns .send) := by
  obtain ⟨b, rest, rfl⟩ := List.exists_cons_of_ne_nil hchunk
  rw [writePass, if_neg hrem, writeByte, sendOrDiscard_exhausted
    (s := (s.record (.usbOutAvail (rest.length + 1))).countDown.record (.usbTake b)) h b hrun, andThen_fault]

theorem pump_read_exhausted {o : Offer} (hrun : s.is = .running) (hrem : s.pt.remaining ≠ 0) (hdir : s.pt.dir = .read)
    (hspace : o.inSpace ≠ 0) : pump o s = .fault (.busNeverReturns .recv) := by
  simp only [pump, if_neg hrem, hdir, readOffer, if_neg hspace]
  rw [readPass_exhausted (s := s.record _) h hrun hrem hspace, andThen_fault]

theorem pump_write_exhausted {o : Offer} (hrun : s.is = .running) (hrem : s.pt.remaining ≠ 0)
    (hdir : s.pt.dir = .write) (hchunk : o.outChunk ≠ []) : pump o s = .fault (.busNeverReturns .send) := by
  simp only [pump, if_neg hrem, hdir, writeOffer, if_neg hchunk]
  rw [writePass_exhausted (s := s.record _) h hrun hrem hchunk, andThen_fault]

end Exhausted

/-- Settles O60: the first bus call of each step is the one that does not return. -/
theorem unreturnedBusCallSticks : Obligations.UnreturnedBusCallSticks := by
  intro s h
  refine ⟨fun b e f hts h0 hdir => ?_, applyClock_exhausted h, fun o hrun hpos hdir hspace => ?_,
    fun o hrun hpos hdir hchunk => ?_⟩
  · rw [exec_performIoOf_of_admitted h0 hdir, performIo_exhausted h _ hts]
  · exact pump_read_exhausted h hrun (Nat.ne_of_gt hpos) hdir (Nat.ne_of_gt hspace)
  · exact pump_write_exhausted h hrun (Nat.ne_of_gt hpos) hdir hchunk

/-! ## The trace -/

/-- Settles O58: the new trace is the old one and the events of the step. -/
theorem traceOnlyGrows : Obligations.TraceOnlyGrows := by
  intro s t h
  obtain ⟨-, run, ⟨es, htrace, -⟩, -⟩ := step_moves h
  exact ⟨es, htrace⟩

end Sys2Proof.Machine
end

section
/-! PROOFS. The Transfer Continuation Engine (spec/42_transfer_continuation.md R160 to R172): what one pass does to the
transfer, and the passes that carry a transfer to its end. -/

namespace Sys2Proof.Machine

/-! ## The pass by what the transport offers -/

/-- The bytes a pass offers to a transfer of this direction (R161). -/
def offered : Dir → Offer → Nat
  | .read, o => o.inSpace
  | .write, o => o.outChunk.length

theorem offered_pos_iff (d : Dir) (o : Offer) :
    0 < offered d o ↔ d = .read ∧ 0 < o.inSpace ∨ d = .write ∧ o.outChunk ≠ [] := by
  cases d <;> simp [offered, List.length_pos_iff]

/-- Settles O36: neither loop is entered when there is no transfer or the offer is empty. -/
theorem idlePassDoesNothing : Obligations.IdlePassDoesNothing := by
  intro o s
  refine ⟨fun h0 => if_pos h0, fun hpos hdir hspace => ?_, fun hpos hdir hchunk => ?_⟩
  · simp [pump, Nat.ne_of_gt hpos, hdir, readOffer, hspace, State.record]
  · simp [pump, Nat.ne_of_gt hpos, hdir, writeOffer, hchunk, State.record]

/-- Settles O37: every operation of a pass returns when every bus primitive does. -/
theorem everyPassCompletes : Obligations.EveryPassCompletes := by
  intro o s hl
  obtain ⟨t, ht, -⟩ := pump_returns o hl
  exact ⟨t, ht⟩

/-- The readiness query and the run of the byte loop of a ready pass, in the direction of the transfer. -/
inductive LoopRun (o : Offer) (s : State) : Event → List Event → InternalStatus → Prop
  | read {run : List Event} {is' : InternalStatus} (hdir : s.pt.dir = .read)
      (hrun : ReadRun s.is s.pt.remaining o.inSpace run is') : LoopRun o s (.usbInReady true) run is'
  | write {run : List Event} {is' : InternalStatus} (hdir : s.pt.dir = .write)
      (hrun : WriteRun s.is s.pt.remaining o.outChunk run is') : LoopRun o s (.usbOutReady true) run is'

/-- A readiness query moves no byte (R161). -/
theorem sameBytes_of_isQuery {e : Event} (h : isQuery e = true) : SameBytes [e] [] := by
  cases e <;> simp [isQuery] at h <;> exact ⟨rfl, rfl, rfl, rfl⟩

/-- The events that end a pass or a transfer, which no byte loop records (R169, R170). -/
def EndsChunk (e : Event) : Prop := e = .usbChunkComplete ∨ e = .busStop ∨ e = .usbStatusStage

section LoopRun

variable {o : Offer} {s : State} {query : Event} {run : List Event} {is' : InternalStatus}

theorem LoopRun.readRun (h : LoopRun o s query run is') (hdir : s.pt.dir = .read) :
    ReadRun s.is s.pt.remaining o.inSpace run is' := by
  cases h with
  | read _ hrun => exact hrun
  | write hwrite => cases hdir.symm.trans hwrite

theorem LoopRun.writeRun (h : LoopRun o s query run is') (hdir : s.pt.dir = .write) :
    WriteRun s.is s.pt.remaining o.outChunk run is' := by
  cases h with
  | read hread => cases hdir.symm.trans hread
  | write _ hrun => exact hrun

theorem LoopRun.isQuery (h : LoopRun o s query run is') : isQuery query = true := by
  cases h <;> rfl

theorem LoopRun.not_endsChunk (h : LoopRun o s query run is') : ∀ e ∈ query :: run, ¬ EndsChunk e := by
  refine List.forall_mem_cons.mpr ⟨by cases h <;> simp [EndsChunk], fun e he => ?_⟩
  cases h with
  | read _ hrun => rcases hrun.facts.kinds e he with ⟨_, rfl⟩ | ⟨_, rfl⟩ | ⟨_, _, rfl⟩ <;> simp [EndsChunk]
  | write _ hrun => rcases hrun.facts.kinds e he with ⟨_, rfl⟩ | ⟨_, rfl⟩ | ⟨_, _, rfl⟩ <;> simp [EndsChunk]

theorem LoopRun.no_stage (h : LoopRun o s query run is') : (query :: run).count .usbStatusStage = 0 :=
  List.count_eq_zero.mpr fun hm => h.not_endsChunk _ hm (.inr (.inr rfl))

end LoopRun

/-- A pass finds no transfer, or records that the transport is not ready, or runs the loop of its direction and
ends. -/
theorem pump_cases {o : Offer} {s t : State} (h : pump o s = .next t) :
    (s.pt.remaining = 0 ∧ t = s)
      ∨ (0 < s.pt.remaining ∧ offered s.pt.dir o = 0 ∧ ∃ query, isQuery query = true ∧ t = s.record query)
      ∨ (0 < s.pt.remaining ∧ 0 < offered s.pt.dir o ∧ ∃ query run is' v, LoopRun o s query run is'
          ∧ v.turns = s.env.turns ∧ PassEnd (movedState (offered s.pt.dir o) (query :: run) is' v s) t) := by
  rcases pump_next h with hnone | ⟨hpos, hdir, h0, rfl⟩ | ⟨hpos, hdir, h0, rfl⟩
    | ⟨hpos, hdir, hspace, run, is', v, hrun, hv, -, hend⟩
    | ⟨hpos, hdir, hchunk, run, is', v, hrun, hv, -, hend⟩
  · exact .inl hnone
  · exact .inr (.inl ⟨hpos, by rw [hdir]; exact h0, _, rfl, rfl⟩)
  · exact .inr (.inl ⟨hpos, by rw [hdir]; exact congrArg List.length h0, _, rfl, rfl⟩)
  · have hready : 0 < offered s.pt.dir o := (offered_pos_iff _ _).mpr (.inl ⟨hdir, hspace⟩)
    refine .inr (.inr ⟨hpos, hready, _, run, is', v, .read hdir hrun, hv, ?_⟩)
    rw [hdir]; exact hend
  · have hready : 0 < offered s.pt.dir o := (offered_pos_iff _ _).mpr (.inr ⟨hdir, hchunk⟩)
    refine .inr (.inr ⟨hpos, hready, _, run, is', v, .write hdir hrun, hv, ?_⟩)
    rw [hdir]; exact hend

/-- A ready pass of a transfer in flight runs its loop and ends. -/
theorem pump_ready {o : Offer} {s t : State} (hpos : 0 < s.pt.remaining) (hready : 0 < offered s.pt.dir o)
    (h : pump o s = .next t) :
    ∃ query run is' v, LoopRun o s query run is' ∧ v.turns = s.env.turns
      ∧ PassEnd (movedState (offered s.pt.dir o) (query :: run) is' v s) t := by
  rcases pump_cases h with ⟨h0, -⟩ | ⟨-, h0, -⟩ | ⟨-, -, hrun⟩
  · exact absurd h0 (Nat.ne_of_gt hpos)
  · exact absurd h0 (Nat.ne_of_gt hready)
  · exact hrun

/-! ## The bus accesses of a pass -/

/-- The last-byte tag of each receive of a pass (R163). -/
theorem PassMoves.tags {o : Offer} {s : State} {run : List Event} (h : PassMoves o s run) {k : Nat} {last : Bool}
    {a : RecvAnswer} (hk : (receivedBytes run)[k]? = some (last, a)) : last = true ↔ k + 1 = s.pt.remaining := by
  cases h with
  | nothing => cases hk
  | read _ hrun => exact hrun.facts.tags k last a hk
  | write _ hrun => rw [hrun.facts.recv] at hk; cases hk

/-- Settles O40: the tag of each receive of the loop is whether the count has come to 0. -/
theorem lastByteTagOnFinalByteOnly : Obligations.LastByteTagOnFinalByteOnly := by
  intro o s t h
  obtain ⟨-, run, hrun, es, htrace, hes⟩ := pump_moves h
  refine ⟨es, htrace, ?_⟩
  rw [hes.received]
  exact fun _ _ _ => hrun.tags

/-- A receive that fails is the last one of its pass (R164). -/
theorem PassMoves.failed_recv_last {o : Offer} {s : State} {run : List Event} (h : PassMoves o s run) {k : Nat}
    {last : Bool} (hk : (receivedBytes run)[k]? = some (last, .fail)) : k + 1 = (receivedBytes run).length := by
  cases h with
  | nothing => cases hk
  | read _ hrun => exact hrun.facts.firstFail k last hk
  | write _ hrun => rw [hrun.facts.recv] at hk; cases hk

/-- A send that fails is the last one of its pass (R168). -/
theorem PassMoves.failed_send_last {o : Offer} {s : State} {run : List Event} (h : PassMoves o s run) {k : Nat}
    {b : Byte} (hk : (sentBytes run)[k]? = some (b, .fail)) : k + 1 = (sentBytes run).length := by
  cases h with
  | nothing => cases hk
  | read _ hrun => rw [hrun.facts.sent] at hk; cases hk
  | write _ hrun => exact hrun.facts.firstFail k b hk

/-- A pass accesses the bus only while it is running (R165, R167). -/
theorem PassMoves.no_access {o : Offer} {s : State} {run : List Event} (h : PassMoves o s run)
    (hi : s.is ≠ .running) : receivedBytes run = [] ∧ sentBytes run = [] := by
  cases h with
  | nothing => exact ⟨rfl, rfl⟩
  | read _ hrun => exact ⟨hrun.facts.notRunning hi, hrun.facts.sent⟩
  | write _ hrun => exact ⟨hrun.facts.recv, hrun.facts.notRunning hi⟩

/-- Settles O41: in the loop of either direction the first failing access is the last one. -/
theorem noBusAccessAfterFailure : Obligations.NoBusAccessAfterFailure := by
  intro o s t h
  obtain ⟨-, run, hrun, es, htrace, hes⟩ := pump_moves h
  refine ⟨es, htrace, ?_⟩
  rw [hes.received, hes.sent]
  exact ⟨fun _ _ => hrun.failed_recv_last, fun _ _ => hrun.failed_send_last, hrun.no_access⟩

/-! ## Completion -/

theorem failureLatched_iff (s : State) : failureLatched s = true ↔ s.is = .readFailed ∨ s.is = .writeFailed := by
  simp [failureLatched]

theorem complete_unlimited {s : State} (hl : s.env.busLimit = none) :
    complete s = .next (completedState s.env s) := by
  have hstop : (if (collapseFailure s).pt.deferStop then stop (collapseFailure s) else .next (collapseFailure s))
      = .next { s with
          ts := if failureLatched s then .addressNaked else s.ts
          is := if s.pt.deferStop then .idle else s.is
          trace := s.trace ++ (if s.pt.deferStop ∧ s.is ≠ .idle then [.busStop] else []) } := by
    rw [collapseFailure_eq]
    cases hd : s.pt.deferStop with
    | false => simp
    | true =>
      by_cases hi : s.is = .idle
      · simp [stop_idle, hi]
      · simp [stop_unlimited, hl, hi, State.record, State.writeIs]
  rw [complete, hstop]
  cases hdir : s.pt.dir <;> simp [completedState, State.record, State.writePt, hdir]

/-- Settles O45: the state after a completion, written out. -/
theorem completionEndsTransfer : Obligations.CompletionEndsTransfer := by
  intro s hl
  rw [complete_unlimited hl]
  simp only [completedState, failureLatched_iff, PendingTransfer.empty]

/-! ## The end of a pass -/

theorem PassEnd.of_more {u t : State} (h : PassEnd u t) (hu : u.pt.remaining ≠ 0) :
    t = u.record .usbChunkComplete := by
  cases h with
  | more => rfl
  | last h0 => exact absurd h0 hu

theorem PassEnd.of_last {u t : State} (h : PassEnd u t) (hu : u.pt.remaining = 0) :
    ∃ v, t = completedState v (u.record .usbChunkComplete) := by
  cases h with
  | more hne => exact absurd hu hne
  | last _ v _ => exact ⟨v, rfl⟩

theorem PassEnd.dataStage {u t : State} (h : PassEnd u t) : t.dataStage = u.dataStage := by
  cases h <;> rfl

theorem PassEnd.remaining {u t : State} (h : PassEnd u t) : t.pt.remaining = u.pt.remaining := by
  cases h with
  | more => rfl
  | last h0 => exact h0.symm

theorem PassEnd.dir {u t : State} (h : PassEnd u t) (hpos : 0 < t.pt.remaining) : t.pt.dir = u.pt.dir := by
  rw [h.of_more (Nat.ne_of_gt (h.remaining ▸ hpos)), record_pt]

/-- A completion signals one status stage for a write and none for a read (R170). -/
theorem completedState_stages (v : Env) (s : State) : (completedState v s).trace.count .usbStatusStage
    = s.trace.count .usbStatusStage + if s.pt.dir = .write then 1 else 0 := by
  have hstop (c : Prop) [Decidable c] : (if c then [Event.busStop] else []).count .usbStatusStage = 0 := by
    split <;> rfl
  simp only [completedState, List.count_append, hstop]
  cases s.pt.dir <;> simp

/-- The end of a pass signals a status stage exactly when it ends a write transfer (R170). -/
theorem PassEnd.stages {u t : State} (h : PassEnd u t) : t.trace.count .usbStatusStage
    = u.trace.count .usbStatusStage + if u.pt.dir = .write ∧ t.pt.remaining = 0 then 1 else 0 := by
  cases h with
  | more hne => simp [hne]
  | last h0 v =>
    rw [completedState_stages]
    cases hdir : u.pt.dir <;> simp [completedState, hdir]

/-- What the end of a pass that moved `k` bytes and left the status `is'` writes, and what it leaves alone (R169,
R170). -/
structure PassLeaves (k : Nat) (is' : InternalStatus) (s t : State) : Prop where
  cc : t.cc = s.cc
  clockReg : t.clockReg = s.clockReg
  dataStage : t.dataStage = s.dataStage
  more : k < s.pt.remaining →
    t.ts = s.ts ∧ t.is = is' ∧ t.pt = ⟨s.pt.dir, s.pt.remaining - k, s.pt.deferStop⟩
  last : s.pt.remaining ≤ k →
    t.ts = (if is' = .readFailed ∨ is' = .writeFailed then .addressNaked else s.ts)
      ∧ t.is = (if s.pt.deferStop then .idle else is') ∧ t.pt = ⟨.write, 0, false⟩

theorem PassEnd.leaves {k : Nat} {es : List Event} {is' : InternalStatus} {v : Env} {s t : State}
    (h : PassEnd (movedState k es is' v s) t) : PassLeaves k is' s t where
  cc := h.clock.1
  clockReg := h.clock.2
  dataStage := h.dataStage
  more hlt := by
    rw [h.of_more (Nat.sub_ne_zero_of_lt hlt)]
    exact ⟨rfl, rfl, rfl⟩
  last hle := by
    obtain ⟨w, rfl⟩ := h.of_last (Nat.sub_eq_zero_of_le hle)
    simp only [completedState, failureLatched_iff]
    exact ⟨rfl, rfl, rfl⟩

/-- A ready pass moves the bytes of its loop and leaves what the end of the pass writes. -/
theorem pump_leaves {o : Offer} {s t : State} (hpos : 0 < s.pt.remaining) (hready : 0 < offered s.pt.dir o)
    (h : pump o s = .next t) :
    ∃ query run is', LoopRun o s query run is' ∧ TraceMoves s t run ∧ t.env.turns = s.env.turns
      ∧ PassLeaves (offered s.pt.dir o) is' s t := by
  obtain ⟨query, run, is', v, hloop, hv, hend⟩ := pump_ready hpos hready h
  obtain ⟨hturns, hmoves⟩ := hend.moves_run (sameBytes_of_isQuery hloop.isQuery)
  exact ⟨query, run, is', hloop, hmoves, hturns.trans hv, hend.leaves⟩

/-- Settles O43: the latch is that of the run of the read loop, the rest that of the end of the pass. -/
theorem readPassLeavesState : Obligations.ReadPassLeavesState := by
  intro o s t hdir hpos hspace h
  obtain ⟨query, run, is', hloop, ⟨es, htrace, hes⟩, hturns, hleaves⟩ :=
    pump_leaves hpos ((offered_pos_iff _ _).mpr (.inl ⟨hdir, hspace⟩)) h
  have f := (hloop.readRun hdir).facts
  rw [hdir] at hleaves
  exact ⟨es, is', htrace, hes.received ▸ f.failed, hes.received ▸ f.noFail, hleaves.cc, hleaves.clockReg,
    hleaves.dataStage, hturns, hdir ▸ hleaves.more, hleaves.last⟩

/-- Settles O44: the latch is that of the run of the write loop, the rest that of the end of the pass. -/
theorem writePassLeavesState : Obligations.WritePassLeavesState := by
  intro o s t hdir hpos hchunk h
  obtain ⟨query, run, is', hloop, ⟨es, htrace, hes⟩, hturns, hleaves⟩ :=
    pump_leaves hpos ((offered_pos_iff _ _).mpr (.inr ⟨hdir, hchunk⟩)) h
  have f := (hloop.writeRun hdir).facts
  rw [hdir] at hleaves
  exact ⟨es, is', htrace, hes.sent ▸ f.failed, hes.sent ▸ f.noFail, hleaves.cc, hleaves.clockReg,
    hleaves.dataStage, hturns, hdir ▸ hleaves.more, hleaves.last⟩

/-- Settles O46: the loop records none of the three signals, and the end of the pass begins with the chunk signal. -/
theorem chunkCompleteOncePerMovingPass : Obligations.ChunkCompleteOncePerMovingPass := by
  intro o s t hpos hready h
  obtain ⟨query, run, is', v, hloop, -, hend⟩ := pump_ready hpos ((offered_pos_iff _ _).mpr hready) h
  obtain ⟨ending, htrace, hending, hmore, -⟩ := passEnd_trace hend
  have hmoved := hloop.not_endsChunk
  exact ⟨query :: run, ending, htrace, fun hm => hmoved _ hm (.inl rfl), fun hm => hmoved _ hm (.inr (.inl rfl)),
    fun hm => hmoved _ hm (.inr (.inr rfl)), hending, hmore⟩

/-! ## The progress of a transfer over passes -/

/-- The bytes that a list of offers makes to a transfer of this direction. -/
def offeredInAll (d : Dir) (os : List Offer) : Nat := (os.map (offered d)).sum

theorem offeredInAll_append (d : Dir) (os ps : List Offer) :
    offeredInAll d (os ++ ps) = offeredInAll d os + offeredInAll d ps := by
  simp [offeredInAll]

theorem offeredInAll_write (os : List Offer) : offeredInAll .write os = (os.flatMap Offer.outChunk).length := by
  simp only [offeredInAll, List.length_flatMap]
  rfl

/-- From `s` to `t` a transfer of direction `d` moves on by what `os` offers, up to its count, and its one status stage
comes with the last byte of a write (R170, R171). -/
structure Progress (d : Dir) (os : List Offer) (s t : State) : Prop where
  remaining : t.pt.remaining = s.pt.remaining - offeredInAll d os
  dir : 0 < t.pt.remaining → t.pt.dir = d
  moved : ∃ es, t.trace = s.trace ++ es
    ∧ (d = .read → (putBytes es).length = min s.pt.remaining (offeredInAll d os))
    ∧ (d = .write → takenBytes es = (os.flatMap Offer.outChunk).take s.pt.remaining)
  stages : t.trace.count .usbStatusStage
    = s.trace.count .usbStatusStage + if d = .write ∧ 0 < s.pt.remaining ∧ t.pt.remaining = 0 then 1 else 0

theorem Progress.refl {d : Dir} {s : State} (hdir : 0 < s.pt.remaining → s.pt.dir = d) : Progress d [] s s where
  remaining := rfl
  dir := hdir
  moved := ⟨[], by simp, fun _ => by simp [putBytes, offeredInAll], fun _ => by simp [takenBytes]⟩
  stages := by
    have hnone : ¬ (d = .write ∧ 0 < s.pt.remaining ∧ s.pt.remaining = 0) := by omega
    rw [if_neg hnone, Nat.add_zero]

theorem Progress.trans {d : Dir} {os ps : List Offer} {s u t : State} (h : Progress d os s u)
    (k : Progress d ps u t) : Progress d (os ++ ps) s t where
  remaining := by rw [k.remaining, h.remaining, offeredInAll_append, Nat.sub_sub]
  dir := k.dir
  moved := by
    obtain ⟨es, hes, hput, htaken⟩ := h.moved
    obtain ⟨fs, hfs, hput', htaken'⟩ := k.moved
    refine ⟨es ++ fs, by rw [hfs, hes, List.append_assoc], fun hd => ?_, fun hd => ?_⟩
    · rw [putBytes_append, List.length_append, hput hd, hput' hd, h.remaining, offeredInAll_append]
      omega
    · subst hd
      rw [takenBytes_append, htaken rfl, htaken' rfl, h.remaining, offeredInAll_write, List.flatMap_append,
        List.take_append]
  stages := by
    have hu := h.remaining
    have ht := k.remaining
    rw [k.stages, h.stages]
    by_cases hdone : u.pt.remaining = 0
    · have htdone : t.pt.remaining = 0 := by omega
      simp [hdone, htdone]
    · have hspos : 0 < s.pt.remaining := by omega
      simp [hdone, hspos, Nat.pos_of_ne_zero hdone]

/-- One pass is progress by its offer. -/
theorem pump_progress {d : Dir} {o : Offer} {s t : State} (hdir : 0 < s.pt.remaining → s.pt.dir = d)
    (h : pump o s = .next t) : Progress d [o] s t := by
  rcases pump_cases h with ⟨h0, rfl⟩ | ⟨hpos, h0, query, hquery, rfl⟩
    | ⟨hpos, -, query, run, is', v, hloop, -, hend⟩
  · exact {
      remaining := by simp [h0]
      dir := hdir
      moved := ⟨[], by simp, fun _ => by simp [h0, putBytes], fun _ => by simp [h0, takenBytes]⟩
      stages := by simp [h0] }
  · obtain rfl := hdir hpos
    have hsame := sameBytes_of_isQuery hquery
    exact {
      remaining := by simp [offeredInAll, h0]
      dir := fun _ => rfl
      moved := ⟨[query], rfl, fun _ => by rw [hsame.put]; simp [putBytes, offeredInAll, h0], fun hd => by
        rw [hd] at h0
        rw [hsame.taken]
        simp [takenBytes, List.eq_nil_of_length_eq_zero h0]⟩
      stages := by
        have hne : query ≠ .usbStatusStage := by rintro rfl; cases hquery
        simp [Nat.ne_of_gt hpos, hne] }
  · obtain rfl := hdir hpos
    exact {
      remaining := by simp [hend.remaining, movedState, offeredInAll]
      dir := hend.dir
      moved := by
        obtain ⟨-, es, htrace, hes⟩ := hend.moves_run (sameBytes_of_isQuery hloop.isQuery)
        refine ⟨es, htrace, fun hd => ?_, fun hd => ?_⟩
        · simp [hes.put, (hloop.readRun hd).facts.putLen, offeredInAll, hd, offered]
        · simp [hes.taken, (hloop.writeRun hd).facts.takenEq]
      stages := by
        have hstages : t.trace.count .usbStatusStage = (s.trace ++ query :: run).count .usbStatusStage
            + if s.pt.dir = .write ∧ t.pt.remaining = 0 then 1 else 0 := hend.stages
        simp [hstages, List.count_append, hloop.no_stage, hpos] }

/-! ## The run of a transfer -/

theorem runsTo_succ {k : Nat} {s u t : State} (hstep : step s = .next u) (h : runsTo k u t) : runsTo (k + 1) s t := by
  have hcore : Sys2Proof.core.step s = .next u := hstep
  simp only [runsTo, Host.Core.run, hcore]
  exact h

/-- A scripted pass is one step of progress by its offer, cut to a chunk (R10). -/
theorem step_scripted_pass {d : Dir} {o : Offer} {rest : List Turn} {s : State}
    (hdir : 0 < s.pt.remaining → s.pt.dir = d) (hturns : s.env.turns = .pass o :: rest)
    (hl : s.env.busLimit = none) :
    ∃ u, step s = .next u ∧ Progress d [o.clamp] s u ∧ u.env.turns = rest ∧ u.env.busLimit = none := by
  have hstep := step_of_takeTurn_pass (takeTurn_cons s _ rest hturns)
  obtain ⟨u, hu, hul⟩ := pump_returns (s := s.writeEnv { s.env with turns := rest }) o.clamp hl
  have hprog : Progress d [o.clamp] (s.writeEnv { s.env with turns := rest }) u := pump_progress hdir hu
  exact ⟨u, hstep.trans hu, ⟨hprog.remaining, hprog.dir, hprog.moved, hprog.stages⟩, (pump_moves hu).1, hul⟩

/-- Scripted passes run to a state that is progress by their offers. -/
theorem passes_run {d : Dir} {rest : List Turn} (os : List Offer) : ∀ {s : State},
    (0 < s.pt.remaining → s.pt.dir = d) → s.env.turns = os.map Turn.pass ++ rest → s.env.busLimit = none →
    ∃ t, runsTo os.length s t ∧ Progress d (os.map Offer.clamp) s t ∧ t.env.turns = rest := by
  induction os with
  | nil => exact fun hdir hturns _ => ⟨_, rfl, .refl hdir, hturns⟩
  | cons o os ih =>
    intro s hdir hturns hl
    obtain ⟨u, hstep, hpass, hu, hul⟩ := step_scripted_pass hdir hturns hl
    obtain ⟨t, hrun, hrest, ht⟩ := ih hpass.dir hu hul
    exact ⟨t, runsTo_succ hstep hrun, hpass.trans hrest, ht⟩

theorem offeredInAll_clamp_read (os : List Offer) : offeredInAll .read (os.map Offer.clamp) = totalSpace os := by
  simp only [offeredInAll, List.map_map]
  rfl

theorem flatMap_clamp_outChunk (os : List Offer) : (os.map Offer.clamp).flatMap Offer.outChunk = totalBytes os :=
  List.flatMap_map ..

/-- Settles O48: progress by offers that reach the count leaves no byte, and only a write gets a status stage. -/
theorem readTransferMovesExactlyItsLength : Obligations.ReadTransferMovesExactlyItsLength := by
  intro s os rest hdir hpos hturns hl hreach
  obtain ⟨t, hrun, hprog, ht⟩ := passes_run os (fun _ => hdir) hturns hl
  obtain ⟨es, htrace, hput, -⟩ := hprog.moved
  have hrem := hprog.remaining
  have hstages := hprog.stages
  rw [offeredInAll_clamp_read] at hput hrem
  rw [htrace, List.count_append, if_neg (by simp)] at hstages
  exact ⟨t, es, hrun, htrace, (hput rfl).trans (Nat.min_eq_left hreach), by omega, ht,
    List.count_eq_zero.mp (by omega)⟩

/-- Settles O49: progress by offers that reach the count leaves no byte, and its last byte brings the status stage. -/
theorem writeTransferMovesExactlyItsLength : Obligations.WriteTransferMovesExactlyItsLength := by
  intro s os rest hdir hpos hturns hl hreach
  obtain ⟨t, hrun, hprog, ht⟩ := passes_run os (fun _ => hdir) hturns hl
  obtain ⟨es, htrace, -, htaken⟩ := hprog.moved
  have hrem : t.pt.remaining = 0 := by
    rw [hprog.remaining, offeredInAll_write, flatMap_clamp_outChunk]
    omega
  have hstages := hprog.stages
  rw [htrace, List.count_append, if_pos ⟨rfl, hpos, hrem⟩] at hstages
  exact ⟨t, es, hrun, htrace, flatMap_clamp_outChunk os ▸ htaken rfl, hrem, ht, by omega⟩

end Sys2Proof.Machine
end

section
/-! PROOFS. The Dispatcher (spec/43_command_dispatcher.md R190 to R209): the step of a delivered request, what each
command answers, and the outcome each moves to. -/

namespace Sys2Proof.Machine

/-! ## The step of a delivered request -/

theorem step_scripted_request {s : State} {req : Request} {rest : List Turn}
    (h : s.env.turns = .request req :: rest) : step s = dispatch req (s.writeEnv { s.env with turns := rest }) :=
  step_of_takeTurn_request (takeTurn_cons s _ rest h)

/-- Settles O8: the step delivers the scripted request, and dispatching it is running the command it decodes to. -/
theorem stepRunsDecodedCommand : Obligations.StepRunsDecodedCommand := fun _ _ _ _ hturns hdecode =>
  (step_scripted_request hturns).trans (dispatch_of_decode hdecode _)

theorem dispatch_unknown {req : Request} (h : 8 ≤ req.packet.bRequest.toNat) (s : State) :
    dispatch req s = unknownCommand req (deliver req s) := by
  simp [dispatch, (opcodeSelectsCommand req.packet).2 h]

/-- An opcode that is no command is neither PERFORM_IO's nor SET_DELAY's, so that only a transfer in flight keeps it
out (R205, R206). -/
theorem admission_unknown {req : Request} (h : 8 ≤ req.packet.bRequest.toNat) (s : State) :
    admission req s = if 0 < s.pt.remaining then some (.hostProtocolViolation req) else none := by
  refine admission_other s (Bool.eq_false_iff.mpr fun hio => ?_) fun hdelay => ?_
  · obtain ⟨-, hle⟩ := (isPerformIo_iff_ioOpcode _).mp hio
    omega
  · simp [hdelay] at h

/-- Settles O13: the request is admitted with no transfer in flight, and its step only records that it is
unanswered. -/
theorem unknownOpcodeIsUnanswered : Obligations.UnknownOpcodeIsUnanswered := by
  intro s req rest hturns hop h0
  have hadm : admission req (deliver req (s.writeEnv { s.env with turns := rest })) = none :=
    (admission_unknown hop _).trans (if_neg (Nat.not_lt.mpr (Nat.le_of_eq h0)))
  rw [step_scripted_request hturns, dispatch_unknown hop, unknownCommand, admitted_none hadm]
  simp [unanswered, deliver, State.record, State.writeDataStage, State.writeEnv]

/-! ## A command that is not admitted -/

/-- Every command that is not admitted stops with the fault of its admission (R190). -/
theorem exec_of_refused {i : Instr} {s : State} {r : Fault} (h : admission (requestOf i s) s = some r) :
    exec i s = .fault r := by
  cases i <;> exact admitted_some h

/-- A reply command is refused exactly while a transfer is in flight (R206). -/
theorem admission_reply {i : Instr} (s : State) (hio : isPerformIo i.opcode = false) (hdelay : i.opcode ≠ 0x02) :
    admission (requestOf i s) s
      = if 0 < s.pt.remaining then some (.hostProtocolViolation (requestOf i s)) else none :=
  admission_other s hio hdelay

/-- A PERFORM_IO overlaps a transfer in flight, whatever its data stage (R206). -/
theorem exec_performIoOf_of_inFlight {b e : Bool} {f : Fields} {s : State} (hpos : 0 < s.pt.remaining) :
    exec (.performIoOf b e f) s = .fault (.overlappingTransfer (requestOf (.performIoOf b e f) s)) := by
  rcases admission_performIoOf b e f s with ⟨-, hadm⟩ | ⟨h0, -⟩ | ⟨h0, -⟩
  · exact exec_of_refused hadm
  · exact absurd h0 (Nat.ne_of_gt hpos)
  · exact absurd h0 (Nat.ne_of_gt hpos)

theorem exec_reply_of_inFlight {i : Instr} {s : State} (hio : isPerformIo i.opcode = false) (hdelay : i.opcode ≠ 0x02)
    (hpos : 0 < s.pt.remaining) : exec i s = .fault (.hostProtocolViolation (requestOf i s)) :=
  exec_of_refused ((admission_reply s hio hdelay).trans (if_pos hpos))

/-- Settles O27: each request is refused on admission, but a SET_DELAY without a data stage. -/
theorem requestDuringTransferFaults : Obligations.RequestDuringTransferFaults := by
  intro s hpos
  refine ⟨fun b e f => exec_performIoOf_of_inFlight hpos,
    fun f => exec_reply_of_inFlight isPerformIo_echo opcode_echo_ne_setDelay hpos,
    fun f => exec_reply_of_inFlight isPerformIo_getCapabilities opcode_getCapabilities_ne_setDelay hpos,
    fun f => exec_reply_of_inFlight isPerformIo_getStatus opcode_getStatus_ne_setDelay hpos,
    fun req hop => ?_, fun f hl => (admission_setDelay f s).trans (if_pos hl)⟩
  rw [dispatch_unknown hop]
  exact admitted_some ((admission_unknown hop _).trans (if_pos hpos))

/-- Settles O28: a data stage with bytes that runs the other way does not agree with the direction bit. -/
theorem wrongDirectionFaults : Obligations.WrongDirectionFaults := by
  intro b e f s h0 hl hdir
  rcases admission_performIoOf b e f s with ⟨hpos, -⟩ | ⟨-, -, hadm⟩ | ⟨-, hagrees, -⟩
  · exact absurd h0 (Nat.ne_of_gt hpos)
  · exact exec_of_refused hadm
  · exact absurd hagrees (not_or.mpr ⟨hl, hdir⟩)

/-! ## The commands with an immediate reply -/

section Reply

variable {s : State} (f : Fields) (h0 : s.pt.remaining = 0)

include h0

theorem exec_echo : exec (.echo f) s = .next (s.record (.usbReply (le16 f.wValue))) := by
  have hbody : exec (.echo f) s = usbReply (le16 (encode (.echo f)).wValue) s :=
    admitted_none (admission_other_none h0 isPerformIo_echo opcode_echo_ne_setDelay)
  rw [hbody, encode_wValue]
  rfl

theorem exec_getCapabilities : exec (.getCapabilities f) s = .next (s.record (.usbReply (le32 Config.caps))) :=
  admitted_none (admission_other_none h0 isPerformIo_getCapabilities opcode_getCapabilities_ne_setDelay)

theorem exec_getStatus : exec (.getStatus f) s = .next (s.record (.usbReply [statusCode s.ts])) :=
  admitted_none (admission_other_none h0 isPerformIo_getStatus opcode_getStatus_ne_setDelay)

end Reply

/-- Settles O14: the reply is `wValue` in the byte order of the block. -/
theorem echoRepliesVerbatim : Obligations.EchoRepliesVerbatim := fun f _ h0 => exec_echo f h0

/-- Settles O15: the reply is the capability word in the byte order of the block. -/
theorem getCapabilitiesRepliesMask : Obligations.GetCapabilitiesRepliesMask := fun f _ h0 => exec_getCapabilities f h0

/-- Settles O16: the reply is the code of each of the four statuses. -/
theorem getStatusRepliesCode : Obligations.GetStatusRepliesCode := fun f _ h0 => exec_getStatus f h0

/-! ## SET_DELAY -/

theorem exec_setDelay_of_length {f : Fields} (s : State) (hl : f.wLength ≠ 0) :
    exec (.setDelay f) s = .fault (.hostProtocolViolation (requestOf (.setDelay f) s)) :=
  exec_of_refused ((admission_setDelay f s).trans (if_neg hl))

/-- Settles O18: a data stage keeps SET_DELAY out, and no reply reads `wLength`. -/
theorem delayLengthFaultsReplyLengthIgnored : Obligations.DelayLengthFaultsReplyLengthIgnored := by
  refine ⟨fun f s hl => exec_setDelay_of_length s hl, fun f n s h0 => ⟨?_, ?_, ?_⟩⟩
  · rw [exec_echo _ h0, exec_echo _ h0]
  · rw [exec_getCapabilities _ h0, exec_getCapabilities _ h0]
  · rw [exec_getStatus _ h0, exec_getStatus _ h0]

/-- A SET_DELAY without a data stage is admitted in every state (R196). -/
theorem exec_setDelay_of_admitted {f : Fields} (s : State) (hl : f.wLength = 0) :
    exec (.setDelay f) s = setDelayWith (computeClock f.wValue.toInt) (requestOf (.setDelay f) s) s := by
  have hadm : admission (requestOf (.setDelay f) s) s = none := (admission_setDelay f s).trans (if_pos hl)
  have hbody : exec (.setDelay f) s = setDelayWith (computeClock (delayOf (encode (.setDelay f))))
      (requestOf (.setDelay f) s) s := admitted_none hadm
  rw [hbody, delayOf_encode]
  rfl

theorem exec_setDelay_of_nonPositive {f : Fields} (s : State) (hl : f.wLength = 0) (hd : f.wValue.toInt ≤ 0) :
    exec (.setDelay f) s = .fault (.undefinedDelay f.wValue) := by
  have hdelay : delayOf (requestOf (.setDelay f) s).packet ≤ 0 := le_of_eq_of_le (delayOf_encode (.setDelay f)) hd
  rw [exec_setDelay_of_admitted s hl, setDelayWith_nonPositive _ s hdelay, requestOf_packet, encode_wValue]
  rfl

/-- Settles O17: 0 and the upper half of the 16-bit words are the words whose signed reading is not positive. -/
theorem nonPositiveDelayFaults : Obligations.NonPositiveDelayFaults := by
  intro f s hl hv
  refine exec_setDelay_of_nonPositive s hl ?_
  rcases hv with hv | hv
  · simp [hv]
  · rw [BitVec.toInt_eq_toNat_cond]
    have := f.wValue.isLt
    split <;> omega

/-- Settles O32: only a SET_DELAY is ill-formed, and it is kept out for its length or faults for its delay. -/
theorem illFormedCommandFaults : Obligations.IllFormedCommandFaults := by
  intro i s hwf
  cases i with
  | setDelay f =>
    by_cases hl : f.wLength = 0
    · have hd : f.wValue.toInt ≤ 0 := by simpa [Instr.wellFormed, delayLengthOk, delayValueOk, hl] using hwf
      exact ⟨_, exec_setDelay_of_nonPositive s hl hd⟩
    · exact ⟨_, exec_setDelay_of_length s hl⟩
  | _ => cases hwf

/-- A positive delay without a data stage is left to the configurator's result (R194, R195). -/
theorem exec_setDelay_of_positive {f : Fields} (s : State) (hl : f.wLength = 0) (hd : 0 < f.wValue.toInt) :
    exec (.setDelay f) s = match computeClock f.wValue.toInt with
      | none => unanswered (requestOf (.setDelay f) s) s
      | some c => applyClock c s := by
  have hdelay : ¬ delayOf (requestOf (.setDelay f) s).packet ≤ 0 := by
    rw [requestOf_packet, delayOf_encode]
    exact Int.not_le.mpr hd
  rw [exec_setDelay_of_admitted s hl]
  cases computeClock f.wValue.toInt with
  | none => exact setDelayWith_none s hdelay
  | some c => exact setDelayWith_some c s hdelay

theorem busSetClock_unlimited {s : State} (c : ClockConfig) (hl : s.env.busLimit = none) :
    busSetClock c s = .next ((s.writeClockReg c).record (.busSetClock c.tier c.bitLength)) := by
  rw [busSetClock, busCall_unlimited _ hl, andThen_next]

theorem applyClock_unlimited {s : State} (c : ClockConfig) (hl : s.env.busLimit = none) :
    applyClock c s = .next (clockedState c s.env s) := by
  simp only [applyClock, busResetDiscardsTransfer s hl, andThen_next, busSetClock_unlimited, hl]
  simp [clockedState, PendingTransfer.empty, State.record, State.writeClockReg, State.writeCc, State.writeIs,
    State.writeTs]

/-- Settles O20: the bus reset, the register write, the statuses and the acknowledge, in the order of R194. -/
theorem appliedClockReplacesAll : Obligations.AppliedClockReplacesAll := fun c _ hl => applyClock_unlimited c hl

/-- Settles O19: the configurator finds no clock, or finds one that is applied. -/
theorem setDelayCompletes : Obligations.SetDelayCompletes := by
  intro f s hl hd hlimit
  rw [exec_setDelay_of_positive s hl hd]
  cases computeClock f.wValue.toInt with
  | none => rfl
  | some c => exact applyClock_unlimited c hlimit

/-! ## PERFORM_IO before configuration -/

theorem performIo_of_unconfigured {s : State} (req : Request) (hts : s.ts = .unconfigured) :
    performIo req s = .next (s.record (.unanswered req)) :=
  if_pos hts

/-- Settles O24: an admitted PERFORM_IO tests the status before it accesses the bus. -/
theorem unconfiguredIoIsUnanswered : Obligations.UnconfiguredIoIsUnanswered := by
  intro b e f s hts h0 hdir
  rw [exec_performIoOf_of_admitted h0 hdir, performIo_of_unconfigured _ hts]
  rfl

/-! ## The outcome of a request -/

theorem controlOutcome_of_refused {i : Instr} {s : State} {r : Fault} (h : admission (requestOf i s) s = some r) :
    controlOutcome i s = .faulted r := by
  simp [controlOutcome, h]

theorem reply_showsOutcome {i : Instr} {s : State} {bytes : List Byte} (hadm : admission (requestOf i s) s = none)
    (hio : isPerformIo i.opcode = false) (hdelay : i.opcode ≠ 0x02)
    (hexec : s.pt.remaining = 0 → exec i s = .next (s.record (.usbReply bytes))) :
    showsOutcome i s (exec i s) (.replied bytes) :=
  hexec (admissionIf_none ((admission_reply s hio hdelay).symm.trans hadm))

/-- A SET_DELAY without a data stage faults, is left unanswered or acknowledges, by its delay and its clock (R193 to
R195). -/
theorem setDelay_showsOutcome {f : Fields} {s : State} (hl : f.wLength = 0) (hlimit : s.env.busLimit = none) :
    showsOutcome (.setDelay f) s (exec (.setDelay f) s) (controlOutcome (.setDelay f) s) := by
  simp only [controlOutcome, admission_setDelay, if_pos hl]
  by_cases hd : f.wValue.toInt ≤ 0
  · rw [if_pos hd]
    exact exec_setDelay_of_nonPositive s hl hd
  · rw [if_neg hd, exec_setDelay_of_positive s hl (Int.not_le.mp hd)]
    cases computeClock f.wValue.toInt with
    | none => rfl
    | some c =>
      have htrace (es : List Event) : s.trace ++ es ++ [.busSetClock c.tier c.bitLength, .usbStatusStage]
          = s.trace ++ (es ++ [.busSetClock c.tier c.bitLength]) ++ [.usbStatusStage] := by simp
      refine ⟨_, _, applyClock_unlimited c hlimit, htrace _, ?_, rfl⟩
      split <;> simp

/-- The address phase of a zero length ends with the one status stage and leaves the transfer (R199). -/
theorem addressPhase_of_empty {p : Packet} {v : Env} {s t : State} (h : t = ioAcked p v s ∨ t = ioNaked p v s)
    (hlen : lengthOf p = 0) :
    ∃ es, t.trace = s.trace ++ es ++ [.usbStatusStage] ∧ .usbStatusStage ∉ es ∧ t.pt = s.pt := by
  rcases h with rfl | rfl
  · rw [ioAcked, if_pos hlen]
    refine ⟨_, congrArg (· ++ _) (List.append_assoc ..), ?_, rfl⟩
    split <;> simp
  · rw [ioNaked, if_pos hlen]
    exact ⟨_, rfl, by simp, rfl⟩

/-- The address phase of any other length arms the pump, with no status stage (R199, R204). -/
theorem addressPhase_of_data {p : Packet} {v : Env} {s t : State} (h : t = ioAcked p v s ∨ t = ioNaked p v s)
    (hlen : lengthOf p ≠ 0) :
    ∃ es, t.trace = s.trace ++ es ∧ .usbStatusStage ∉ es ∧ t.pt = ⟨dirOf p, lengthOf p, endFlag p⟩ := by
  rcases h with rfl | rfl
  · rw [ioAcked, if_neg hlen]
    exact ⟨_, rfl, by simp, rfl⟩
  · rw [ioNaked, if_neg hlen]
    exact ⟨_, rfl, by simp, rfl⟩

theorem controlOutcome_performIoOf {b e : Bool} {f : Fields} {s : State}
    (hadm : admission (requestOf (.performIoOf b e f) s) s = none) :
    controlOutcome (.performIoOf b e f) s = ioOutcome f s := by
  rw [controlOutcome.eq_def, hadm]
  cases b <;> cases e <;> rfl

/-- An admitted PERFORM_IO is left unanswered, acknowledges or streams, by the status and its length (R199). -/
theorem performIoOf_showsOutcome {b e : Bool} {f : Fields} {s : State} (h0 : s.pt.remaining = 0)
    (hdir : directionAgrees f s) (hlimit : s.env.busLimit = none) :
    showsOutcome (.performIoOf b e f) s (exec (.performIoOf b e f) s) (ioOutcome f s) := by
  rw [exec_performIoOf_of_admitted h0 hdir, ioOutcome]
  split
  case isTrue hts => exact performIo_of_unconfigured _ hts
  case isFalse hts =>
    obtain ⟨t, ht, -⟩ := performIo_returns (requestOf (.performIoOf b e f) s) hlimit
    obtain ⟨hu, -⟩ | ⟨-, v, -, hphase⟩ := performIo_next ht
    · exact absurd hu hts
    have hlength : lengthOf (encode (.performIoOf b e f)) = f.wLength.toNat := by simp
    split
    case isTrue hl =>
      obtain ⟨es, htrace, hes, hpt⟩ :=
        addressPhase_of_empty hphase (hlength.trans ((wLength_toNat_eq_zero f).mpr hl))
      exact ⟨t, es, ht, htrace, hes, by simp [phase, hpt, h0]⟩
    case isFalse hl =>
      have hne : f.wLength.toNat ≠ 0 := fun h => hl ((wLength_toNat_eq_zero f).mp h)
      obtain ⟨es, htrace, hes, hpt⟩ := addressPhase_of_data hphase fun h => hne (hlength.symm.trans h)
      rw [requestOf_packet, dirOf_encode, hlength, performIoOf_fields] at hpt
      cases hbit : f.wValue.getLsbD 0 with
      | true =>
        rw [hbit] at hpt
        exact ⟨t, es, ht, htrace, hes, by simp [phase, hpt, hne]⟩
      | false =>
        rw [hbit] at hpt
        exact ⟨t, es, ht, htrace, hes, by simp [phase, hpt, hne]⟩

/-- Settles O30: a refused command faults; each admitted one answers as its row of the table says. -/
theorem requestMovesToItsOutcome : Obligations.RequestMovesToItsOutcome := by
  intro i s hlimit
  cases hadm : admission (requestOf i s) s with
  | some r =>
    rw [controlOutcome_of_refused hadm]
    exact exec_of_refused hadm
  | none =>
    rcases instr_cases i with ⟨f, rfl⟩ | ⟨f, rfl⟩ | ⟨f, rfl⟩ | ⟨f, rfl⟩ | ⟨b, e, f, rfl⟩
    · rw [controlOutcome, hadm]
      exact reply_showsOutcome hadm isPerformIo_echo opcode_echo_ne_setDelay (exec_echo f)
    · rw [controlOutcome, hadm]
      exact reply_showsOutcome hadm isPerformIo_getCapabilities opcode_getCapabilities_ne_setDelay
        (exec_getCapabilities f)
    · rw [controlOutcome, hadm]
      exact reply_showsOutcome hadm isPerformIo_getStatus opcode_getStatus_ne_setDelay (exec_getStatus f)
    · have hl : f.wLength = 0 := Decidable.byContradiction fun hne => by
        rw [admission_setDelay, if_neg hne] at hadm
        cases hadm
      exact setDelay_showsOutcome hl hlimit
    · rw [controlOutcome_performIoOf hadm]
      rcases admission_performIoOf b e f s with ⟨-, hr⟩ | ⟨-, -, hr⟩ | ⟨h0, hdir, -⟩
      · cases hr.symm.trans hadm
      · cases hr.symm.trans hadm
      · exact performIoOf_showsOutcome h0 hdir hlimit

end Sys2Proof.Machine
end

section
/-! PROOFS. The register read with a repeated START (spec/43_command_dispatcher.md R203): a pointer write that leaves
the bus held, and a read over any passes that ends with the STOP. -/

namespace Sys2Proof.Machine

@[simp] theorem taggedReads_nil : taggedReads [] = [] := rfl

@[simp] theorem taggedReads_cons (b : Byte) (bs : List Byte) :
    taggedReads (b :: bs) = .busRecv (decide (bs.length = 0)) (.ok b) :: taggedReads bs := by
  simp [taggedReads, List.mapIdx_cons, eq_comm]

/-- A read loop whose script begins with the bytes still to read receives and puts as many of them as there is space,
and leaves the rest of the script (R162, R163). -/
theorem ReadRun.receives {is is' : InternalStatus} {r n : Nat} {es : List Event} (h : ReadRun is r n es is') :
    ∀ {bs : List Byte} {recvs left : List RecvAnswer}, is = .running → r = bs.length →
      bs.map .ok ++ recvs = (receivedBytes es).map Prod.snd ++ left →
      is' = .running ∧ es.filter isBusEvent = (taggedReads bs).take n ∧ putBytes es = bs.take n
        ∧ left = (bs.drop n).map .ok ++ recvs := by
  induction h with
  | done is n =>
    intro bs recvs left hi hr hscript
    obtain rfl := List.length_eq_zero_iff.mp hr.symm
    exact ⟨hi, by simp, by simp [putBytes], by simpa [receivedBytes] using hscript.symm⟩
  | full is r =>
    intro bs recvs left hi hr hscript
    exact ⟨hi, by simp [isBusEvent], by simp [putBytes], by simpa [receivedBytes] using hscript.symm⟩
  | byteOk b r n es is' h ih =>
    intro bs recvs left hi hr hscript
    obtain ⟨c, bs, rfl⟩ := List.exists_cons_of_length_eq_add_one hr.symm
    simp only [receivedBytes, List.filterMap_cons, List.map_cons, List.cons_append, List.cons.injEq,
      RecvAnswer.ok.injEq] at hscript
    obtain ⟨rfl, hscript⟩ := hscript
    obtain rfl : r = bs.length := by simpa using hr
    obtain ⟨hi', hbus, hput, hleft⟩ := ih rfl rfl hscript
    exact ⟨hi', by simp [List.filter_cons, isBusEvent, hbus], by simpa [putBytes] using hput, by simpa using hleft⟩
  | byteFail r n es is' h ih =>
    intro bs recvs left hi hr hscript
    obtain ⟨c, bs, rfl⟩ := List.exists_cons_of_length_eq_add_one hr.symm
    simp [receivedBytes] at hscript
  | filler is r n es is' hne h ih => exact fun hi => absurd hi hne

/-- A read with END that has still to get `bs`, which the script of answers begins with; with nothing left to get it
has completed (R163, R170). -/
inductive Reading : List Byte → State → Prop
  | done {s : State} (hts : s.ts = .addressAcked) (hi : s.is = .idle) (h0 : s.pt.remaining = 0) : Reading [] s
  | busy {bs : List Byte} {s : State} {recvs : List RecvAnswer} (hne : bs ≠ []) (hts : s.ts = .addressAcked)
      (hi : s.is = .running) (hpt : s.pt = ⟨.read, bs.length, true⟩)
      (hrecvs : s.env.recvs = bs.map .ok ++ recvs) : Reading bs s

theorem Reading.of_nil {s : State} (h : Reading [] s) :
    s.ts = .addressAcked ∧ s.is = .idle ∧ s.pt.remaining = 0 := by
  cases h with
  | done hts hi h0 => exact ⟨hts, hi, h0⟩
  | busy hne => exact absurd rfl hne

/-- What a read with END that has still to get `bs` does on the bus: the tagged reads, and the STOP after the last. -/
def readOnWire (bs : List Byte) : List Event := if bs = [] then [] else taggedReads bs ++ [.busStop]

@[simp] theorem readOnWire_nil : readOnWire [] = [] := rfl

theorem readOnWire_of_ne_nil {bs : List Byte} (h : bs ≠ []) : readOnWire bs = taggedReads bs ++ [.busStop] := if_neg h

/-- From `s` to `t` the read of `bs` comes to where `left` is still to get: the bus has seen what the rest of the read
does not show, and the host has got the bytes before `left`. -/
def Delivers (bs left : List Byte) (s t : State) : Prop :=
  ∃ es, t.trace = s.trace ++ es ∧ es.filter isBusEvent ++ readOnWire left = readOnWire bs ∧ putBytes es ++ left = bs

theorem Delivers.refl (bs : List Byte) (s : State) : Delivers bs bs s s := ⟨[], by simp, rfl, rfl⟩

theorem Delivers.trans {as bs cs : List Byte} {s t u : State} (h : Delivers as bs s t) (k : Delivers bs cs t u) :
    Delivers as cs s u := by
  obtain ⟨es, htrace, hbus, hput⟩ := h
  obtain ⟨fs, htrace', hbus', hput'⟩ := k
  refine ⟨es ++ fs, by rw [htrace', htrace, List.append_assoc], ?_, ?_⟩
  · rw [List.filter_append, List.append_assoc, hbus', hbus]
  · rw [putBytes_append, List.append_assoc, hput', hput]

theorem length_taggedReads (bs : List Byte) : (taggedReads bs).length = bs.length := List.length_mapIdx

theorem taggedReads_drop (n : Nat) (bs : List Byte) : taggedReads (bs.drop n) = (taggedReads bs).drop n := by
  induction n generalizing bs with
  | zero => rfl
  | succ n ih =>
    cases bs with
    | nil => rfl
    | cons b bs => simpa using ih bs

/-- A pass of the read gets as many bytes as there is space, and the pass that gets the last one stops the bus
(R163, R170). -/
theorem Reading.pump {bs : List Byte} {o : Offer} {s t : State} (h : Reading bs s) (hpump : pump o s = .next t) :
    Reading (bs.drop o.inSpace) t ∧ Delivers bs (bs.drop o.inSpace) s t := by
  cases h with
  | done hts hi h0 =>
    obtain rfl : s = t := Host.Outcome.next.inj (((idlePassDoesNothing o s).1 h0).symm.trans hpump)
    rw [List.drop_nil]
    exact ⟨.done hts hi h0, .refl _ _⟩
  | @busy _ _ recvs hne hts hi hpt hrecvs =>
    have hrem : s.pt.remaining = bs.length := congrArg PendingTransfer.remaining hpt
    have hread : s.pt.dir = .read := congrArg PendingTransfer.dir hpt
    rcases pump_next hpump with ⟨h0, -⟩ | ⟨-, -, hspace, rfl⟩ | ⟨-, hdir, -⟩
      | ⟨-, -, hspace, run, is', v, hrun, -, hscript, hend⟩ | ⟨-, hdir, -⟩
    · exact absurd (List.length_eq_zero_iff.mp (hrem.symm.trans h0)) hne
    · rw [hspace, List.drop_zero]
      exact ⟨.busy hne hts hi hpt hrecvs, [.usbInReady false], rfl, rfl, rfl⟩
    · cases hread.symm.trans hdir
    · rw [hrecvs, hrem] at hscript
      have hlong : min bs.length o.inSpace ≤ (bs.map RecvAnswer.ok ++ recvs).length := by
        rw [List.length_append, List.length_map]
        omega
      obtain ⟨rfl, hbus, hput, hleft⟩ := hrun.receives hi hrem (hscript hlong)
      by_cases hlast : bs.length ≤ o.inSpace
      · have hdone : s.pt.remaining - o.inSpace = 0 := by omega
        obtain ⟨w, rfl⟩ := hend.of_last hdone
        rw [List.take_of_length_le hlast] at hput
        rw [List.take_of_length_le (length_taggedReads bs ▸ hlast)] at hbus
        rw [List.drop_of_length_le hlast]
        refine ⟨.done ?_ ?_ rfl, (.usbInReady true :: run) ++ [.usbChunkComplete, .busStop], ?_, ?_, ?_⟩
        · simp [completedState, failureLatched, movedState, hts]
        · simp [completedState, movedState, hpt]
        · simp [completedState, movedState, hpt]
        · simp [readOnWire_of_ne_nil hne, hbus, isBusEvent]
        · simpa [putBytes] using hput
      · have hmore : s.pt.remaining - o.inSpace ≠ 0 := by omega
        have hrest : bs.drop o.inSpace ≠ [] := by simpa using hlast
        obtain rfl := hend.of_more hmore
        refine ⟨.busy hrest hts rfl ?_ hleft, (.usbInReady true :: run) ++ [.usbChunkComplete], ?_, ?_, ?_⟩
        · simp [movedState, hpt]
        · simp [movedState]
        · simp [readOnWire_of_ne_nil hne, readOnWire_of_ne_nil hrest, hbus, isBusEvent, taggedReads_drop,
            ← List.append_assoc]
        · have hmoved : putBytes (.usbInReady true :: run ++ [.usbChunkComplete]) = putBytes run := by simp [putBytes]
          rw [hmoved, hput, List.take_append_drop]
    · cases hread.symm.trans hdir

/-- The read does not depend on the moves still to come. -/
theorem Reading.writeTurns {bs : List Byte} {s : State} (rest : List Turn) (h : Reading bs s) :
    Reading bs (s.writeEnv { s.env with turns := rest }) := by
  cases h with
  | done hts hi h0 => exact .done hts hi h0
  | busy hne hts hi hpt hrecvs => exact .busy hne hts hi hpt hrecvs

/-- The scripted passes of the read get as many bytes as their space in all (R171). -/
theorem Reading.passes {rest : List Turn} (os : List Offer) : ∀ {bs : List Byte} {s : State}, Reading bs s →
    s.env.turns = os.map Turn.pass ++ rest → s.env.busLimit = none →
    ∃ t, runsTo os.length s t ∧ Reading (bs.drop (totalSpace os)) t ∧ Delivers bs (bs.drop (totalSpace os)) s t := by
  induction os with
  | nil => exact fun h _ _ => ⟨_, rfl, h, .refl _ _⟩
  | cons o os ih =>
    intro bs s h hturns hl
    have hstep := step_of_takeTurn_pass (takeTurn_cons s _ (os.map Turn.pass ++ rest) hturns)
    obtain ⟨u, hu, hul⟩ := pump_returns (s := s.writeEnv { s.env with turns := os.map Turn.pass ++ rest }) o.clamp hl
    obtain ⟨hread, hdelivers⟩ := (h.writeTurns _).pump hu
    obtain ⟨t, hrun, hread', hdelivers'⟩ := ih hread (pump_moves hu).1 hul
    have hspace : totalSpace (o :: os) = o.clamp.inSpace + totalSpace os := by simp [totalSpace]
    rw [hspace, ← List.drop_drop]
    exact ⟨t, runsTo_succ (hstep.trans hu) hrun, hread', .trans hdelivers hdelivers'⟩

/-- A PERFORM_IO with bytes to move, whose address the script acknowledges, arms the pump (R199). -/
theorem exec_arms_pump {b e : Bool} {f : Fields} {s : State} {starts : List StartAnswer}
    (hts : s.ts ≠ .unconfigured) (h0 : s.pt.remaining = 0) (hl : s.env.busLimit = none)
    (hstarts : s.env.starts = .ack :: starts) (hlen : f.wLength ≠ 0)
    (hdir : s.dataStage = if f.wValue.getLsbD 0 then .read else .write) :
    exec (.performIoOf b e f) s = .next { s with
      ts := .addressAcked
      is := .running
      pt := ⟨s.dataStage, f.wLength.toNat, e⟩
      trace := s.trace ++ [.busStart (f.wIndex.extractLsb' 0 7 ++ f.wValue.extractLsb' 0 1) Config.startTimeout .ack]
      env := { s.env with starts := starts } } := by
  have htake := takeStart_cons hstarts
  rw [acknowledgedIoArmsOrCompletes b e f s hts h0 (.inr hdir) hl (congrArg Prod.fst htake), if_neg hlen, htake, ← hdir]
  rfl

/-- The step of such a PERFORM_IO when it is the scripted request. -/
theorem step_arms_pump {b e : Bool} {f : Fields} {d : Dir} {s : State} {rest : List Turn} {starts : List StartAnswer}
    (hts : s.ts ≠ .unconfigured) (h0 : s.pt.remaining = 0) (hl : s.env.busLimit = none)
    (hturns : s.env.turns = .request ⟨encode (.performIoOf b e f), d⟩ :: rest)
    (hstarts : s.env.starts = .ack :: starts) (hlen : f.wLength ≠ 0)
    (hdir : d = if f.wValue.getLsbD 0 then .read else .write) :
    step s = .next { s with
      ts := .addressAcked
      is := .running
      pt := ⟨d, f.wLength.toNat, e⟩
      dataStage := d
      trace := s.trace ++ [.onControlRequest ⟨encode (.performIoOf b e f), d⟩]
        ++ [.busStart (f.wIndex.extractLsb' 0 7 ++ f.wValue.extractLsb' 0 1) Config.startTimeout .ack]
      env := { s.env with turns := rest, starts := starts } } :=
  (stepRunsDecodedCommand s _ rest _ hturns (decode_encode _)).trans (exec_arms_pump hts h0 hl hstarts hlen hdir)

/-- The step of a scripted pass with the one byte that a write without END has left, which the slave takes: the status
stage and no STOP (R166, R170). -/
theorem step_sends_last_byte {s : State} {o : Offer} {p : Byte} {rest : List Turn} {sends : List SendAnswer}
    (hi : s.is = .running) (hpt : s.pt = ⟨.write, 1, false⟩) (hl : s.env.busLimit = none)
    (hturns : s.env.turns = .pass o :: rest) (ho : o.outChunk = [p]) (hsends : s.env.sends = .ok :: sends) :
    step s = .next { s with
      pt := .empty
      trace := s.trace ++ [.usbOutReady true, .usbOutAvail 1, .usbTake p, .busSend p .ok, .usbChunkComplete,
        .usbStatusStage]
      env := { s.env with turns := rest, sends := sends } } := by
  have hchunk : o.clamp.outChunk = [p] := by simp [Offer.clamp, ho, Config.chunkSize]
  rw [step_of_takeTurn_pass (takeTurn_cons s _ rest hturns)]
  simp [pump, hpt, hchunk, writeOffer, writePass, writeByte, sendOrDiscard, hi, busSend, busCall_unlimited, hl,
    takeSend, hsends, endPass, completeIfDone, complete_unlimited, completedState, failureLatched, State.record,
    State.countDown, State.writePt, State.writeEnv]

/-- A run goes on from where a run ends. -/
theorem runsTo_add {j k : Nat} {s u t : State} (h : runsTo j s u) (h' : runsTo k u t) : runsTo (j + k) s t := by
  induction j generalizing s with
  | zero =>
    obtain rfl : s = u := Host.Outcome.next.inj h
    rwa [Nat.zero_add]
  | succ j ih =>
    simp only [runsTo, Host.Core.run] at h
    split at h
    case h_1 v hstep =>
      rw [Nat.add_right_comm]
      exact runsTo_succ hstep (ih h)
    all_goals cases h

/-- The register pointer write without END, both bytes acknowledged: START, the write address, the pointer, and the bus
stays held (R203). -/
theorem pointerWrite_run {s : State} {b : Bool} {a : Word16} {p : Byte} {o : Offer} {rest : List Turn}
    {starts : List StartAnswer} {sends : List SendAnswer} (hts : s.ts ≠ .unconfigured) (h0 : s.pt.remaining = 0)
    (hl : s.env.busLimit = none) (hturns : s.env.turns = .request (requestWrite b false a 1) :: .pass o :: rest)
    (ho : o.outChunk = [p]) (hstarts : s.env.starts = .ack :: starts) (hsends : s.env.sends = .ok :: sends) :
    ∃ u es, runsTo 2 s u ∧ u.ts = .addressAcked ∧ u.pt.remaining = 0
      ∧ u.env = { s.env with turns := rest, starts := starts, sends := sends } ∧ u.trace = s.trace ++ es
      ∧ es.filter isBusEvent
        = [.busStart (a.extractLsb' 0 7 ++ 0#1) Config.startTimeout .ack, .busSend p .ok]
      ∧ putBytes es = [] := by
  have hone : (1 : Word16) ≠ 0 := by decide
  have haddress := step_arms_pump hts h0 hl hturns hstarts hone (by simp)
  refine ⟨_, _, runsTo_succ haddress (runsTo_succ (step_sends_last_byte rfl rfl hl rfl ho hsends) rfl), rfl, rfl, rfl,
    (congrArg (· ++ _) (List.append_assoc ..)).trans (List.append_assoc ..), ?_, rfl⟩
  simp [List.filter_cons, isBusEvent]

/-- The address phase of the read with END, acknowledged: START and the read address, and all its bytes to get. -/
theorem readAddress_step {s : State} {b : Bool} {a : Word16} {bs : List Byte} {rest : List Turn}
    {starts : List StartAnswer} {recvs : List RecvAnswer} (hts : s.ts ≠ .unconfigured) (h0 : s.pt.remaining = 0)
    (hl : s.env.busLimit = none)
    (hturns : s.env.turns = .request (requestRead b true a (BitVec.ofNat 16 bs.length)) :: rest)
    (hne : bs ≠ []) (hmax : bs.length ≤ 65535) (hstarts : s.env.starts = .ack :: starts)
    (hrecvs : s.env.recvs = bs.map .ok ++ recvs) :
    ∃ u es, step s = .next u ∧ Reading bs u ∧ u.env.turns = rest ∧ u.env.busLimit = none ∧ u.trace = s.trace ++ es
      ∧ es.filter isBusEvent = [.busStart (a.extractLsb' 0 7 ++ 1#1) Config.startTimeout .ack]
      ∧ putBytes es = [] := by
  have hlength : (BitVec.ofNat 16 bs.length).toNat = bs.length := by
    rw [BitVec.toNat_ofNat]
    omega
  have hlen : BitVec.ofNat 16 bs.length ≠ 0 := fun hz => hne <| List.length_eq_zero_iff.mp <| by
    rw [← hlength, hz]
    rfl
  have hpt := congrArg (PendingTransfer.mk .read · true) hlength
  refine ⟨_, _, step_arms_pump hts h0 hl hturns hstarts hlen (by simp), .busy hne rfl rfl hpt hrecvs, rfl, hl,
    List.append_assoc .., ?_, rfl⟩
  simp [List.filter_cons, isBusEvent]

/-- Settles O50: the pointer write leaves the bus held, so the read opens with a START and no STOP before it, and the
passes of the read deliver all its bytes. -/
theorem repeatedStartSequence : Obligations.RepeatedStartSequence := by
  intro s b1 b2 a p bs o os starts sends recvs rest hts _ h0 hl hne hmax ho hspace hturns hstarts hsends hrecvs
  obtain ⟨u, es, hrun, hu, hu0, henv, htrace, hbus, hput⟩ :=
    pointerWrite_run hts h0 hl hturns ho hstarts hsends
  have hurecvs : u.env.recvs = bs.map .ok ++ recvs := by rw [henv, hrecvs]
  obtain ⟨v, fs, hstep, hreading, hvturns, hvl, htrace', hbus', hput'⟩ :=
    readAddress_step (hu ▸ TransactionStatus.noConfusion) hu0 (henv ▸ hl) (congrArg Env.turns henv) hne hmax
      (congrArg Env.starts henv) hurecvs
  obtain ⟨t, hrun', hdone, gs, htrace'', hbus'', hput''⟩ := hreading.passes os hvturns hvl
  rw [List.drop_of_length_le hspace] at hdone hbus'' hput''
  have hsteps : 2 + (os.length + 1) = 3 + os.length := by omega
  refine ⟨t, es ++ fs ++ gs, hsteps ▸ runsTo_add hrun (runsTo_succ hstep hrun'), by simp [htrace'', htrace', htrace],
    ?_, ?_, hdone.of_nil⟩
  · rw [readOnWire_nil, readOnWire_of_ne_nil hne, List.append_nil] at hbus''
    simp [hbus, hbus', hbus'']
  · simpa [hput, hput'] using hput''

end Sys2Proof.Machine
end

section
/-! PROOFS. Reset and configuration (spec/70_reset_and_hazards.md R260 to R263): the power-on state, and what a step can
do before the bus clock is configured. -/

namespace Sys2Proof.Machine

/-- Settles O51: each element at the power-on state, by its definition. -/
theorem powerOnState : Obligations.PowerOnState := ⟨rfl, rfl, rfl, rfl, rfl, rfl, rfl⟩

/-- A request that is only delivered and answered by one event leaves every element of the block. -/
theorem deliver_record (req : Request) (e : Event) (s : State) : (deliver req s).record e
    = { s with dataStage := req.dataStage, trace := s.trace ++ [.onControlRequest req, e] } := by
  simp [deliver, State.record, State.writeDataStage]

/-- Everything a step of an unconfigured block can do: it records events that are not the bus driver's and leaves every
element of the block, or it is a SET_DELAY whose delay gives a clock (R261, R263). A PERFORM_IO gets no further than
the first, because its address phase needs a configured block, and a pass has no transfer to move. -/
theorem step_of_unconfigured {s t : State} (hs : StateInv s) (hts : s.ts = .unconfigured) (h : step s = .next t) :
    (∃ d v es, t = { s with dataStage := d, env := v, trace := s.trace ++ es } ∧ ∀ e ∈ es, isBusEvent e = false)
      ∨ ∃ req c v w, (takeTurn s).1 = .request req ∧ req.packet.bRequest = 0x02
          ∧ computeClock req.packet.wValue.toInt = some c ∧ t = clockedState c w (deliver req (s.writeEnv v)) := by
  rcases step_cases s with ⟨req, v, hturn, hstep, -⟩ | ⟨o, v, -, hstep, -⟩ <;> rw [hstep] at h
  · rcases dispatch_next h with ⟨bytes, rfl⟩ | ⟨r, rfl⟩ | ⟨c, w, hop, hc, -, rfl⟩ | ⟨-, hconf, -⟩
    · exact .inl ⟨_, v, _, deliver_record .., by simp [isBusEvent]⟩
    · exact .inl ⟨_, v, _, deliver_record .., by simp [isBusEvent]⟩
    · exact .inr ⟨req, c, v, w, by rw [hturn], hop, hc, rfl⟩
    · exact absurd hts hconf
  · have hidle : pump o (s.writeEnv v) = .next (s.writeEnv v) := (idlePassDoesNothing o _).1 (hs.noTransfer hts)
    cases hidle.symm.trans h
    exact .inl ⟨s.dataStage, v, [], by simp [State.writeEnv], by simp⟩

/-- Settles O54: a step that leaves the block's elements leaves it unconfigured, and the other is the SET_DELAY. -/
theorem onlySetDelayConfigures : Obligations.OnlySetDelayConfigures := by
  intro s t hs hts h
  rcases step_of_unconfigured hs hts h with ⟨d, v, es, rfl, -⟩ | ⟨req, c, v, w, hturn, hop, hc, rfl⟩
  · exact .inl ⟨hts, hs.configured.mp hts, hs.clocked.mp hts, hs.noTransfer hts⟩
  · exact .inr ⟨req, c, hturn, hop, hc, rfl, rfl, rfl⟩

/-- Settles O55: the reset of a SET_DELAY finds an unconfigured bus and issues no STOP, so that the clock write is its
only bus primitive. -/
theorem noBusAccessBeforeConfiguration : Obligations.NoBusAccessBeforeConfiguration := by
  intro s t hs hts h
  rcases step_of_unconfigured hs hts h with ⟨d, v, es, rfl, hes⟩ | ⟨req, c, v, w, -, -, -, rfl⟩
  · exact ⟨es, rfl, fun e he hbus => absurd hbus (by simp [hes e he])⟩
  · have his : s.is = .unconfigured := hs.configured.mp hts
    refine ⟨[.onControlRequest req, .busSetClock c.tier c.bitLength, .usbStatusStage],
      by simp [clockedState, deliver, his], fun e he hbus => ⟨rfl, ?_⟩⟩
    simp only [List.mem_cons, List.not_mem_nil, or_false] at he
    rcases he with rfl | rfl | rfl
    · cases hbus
    · exact ⟨_, _, rfl⟩
    · cases hbus

end Sys2Proof.Machine
end
